-- ==== Sys2Proof/Word.lean ====
section
/-! DEFINITION. The word type of the block: every field and register is one byte or smaller
(20_memory.md R58, 00_scope.md R7 and R10). -/

namespace Sys2Proof

/-- A byte: 8 bits, bit 7 the most significant (00_scope.md R10). -/
abbrev Byte := BitVec 8

end Sys2Proof
end

