-- ==== Sys2Proof/Config.lean ====
section
/-! DEFINITION. What one CORE configuration fixes: the four configuration constants of 10_state.md
R20 and the parameters the spec leaves open with a default (00_scope.md section 4,
60_exceptions.md R188). -/

namespace Sys2Proof

/-- The configuration of one CORE (10_state.md R20; 00_scope.md R4 to R7). No operation writes it. -/
structure Config where
  /-- `START`, the start tag. -/
  start : Byte
  /-- `STOP`, the stop tag. -/
  stop : Byte
  /-- `ESC`, the escape tag. -/
  esc : Byte
  /-- `POLY`, the generator constant; all 256 values are legal (R6). -/
  poly : Byte
  /-- `IB_CAP`, the capacity of the inbound buffer; `none` is unbounded (20_memory.md R50). -/
  ibCap : Option Nat
  /-- `OB_CAP`, the capacity of the outbound sink; `none` is unbounded (20_memory.md R57). -/
  obCap : Option Nat
  /-- Whether the optional diagnostic sink is attached (60_exceptions.md R188). -/
  diagSink : Bool
  deriving DecidableEq, Repr

namespace Config

/-- The defaults of 00_scope.md R5 and R6, 10_state.md R20. PRESUMED (by the spec itself, decision
D1): the tag numbers are the ASCII codes of the source's characters. DESIGN CHOICE: the sink is
attached (log 12). -/
def default : Config where
  start := 0x7B#8
  stop := 0x7D#8
  esc := 0x5C#8
  poly := 0x87#8
  ibCap := none
  obCap := none
  diagSink := true

/-- Membership in `TAGS = {START, STOP, ESC}` (00_scope.md R4). -/
def isTag (c : Config) (b : Byte) : Bool :=
  b == c.start || b == c.stop || b == c.esc

/-- The three tags are pairwise distinct; otherwise this is no CORE configuration (00_scope.md R4). -/
def tagsDistinct (c : Config) : Bool :=
  c.start != c.stop && c.start != c.esc && c.stop != c.esc

end Config

end Sys2Proof
end

