-- ==== Sys2Proof/Syntax.lean ====
section
/-! DEFINITION. The instructions: one constructor per row of spec/opcode_table.json, with the formats
their operands arrive in. -/

namespace Sys2Proof

/-- The scan state `X.st` (10_state.md R26). -/
inductive ScanState where
  /-- `HUNT`: no start tag found yet. -/
  | hunt
  /-- `FRAME`: scanning forward from just after the start tag. -/
  | frame
  /-- `ESCD`: the previous byte was an escape tag inside a frame. -/
  | escd
  deriving DecidableEq, Repr

/-- The unit that calls the CRC Engine and owns the remainder register (10_state.md R33). -/
inductive CrcUnit where
  /-- The Framer, with `F.crc`. -/
  | framer
  /-- The Extractor, with `X.crc`. -/
  | extractor
  deriving DecidableEq, Repr

/-- The ten wire symbols of 30_encoding.md R80, with the byte they carry where it is not fixed. -/
inductive Symbol where
  | hStart
  | hSkip (d : Byte)
  | hEnd
  | fEsc
  | fStop
  | fStart
  | fData (d : Byte)
  | fEnd
  | eLit (d : Byte)
  | eEnd
  deriving DecidableEq, Repr

/-- The operations of CORE (00_scope.md R8): one constructor per row of spec/opcode_table.json. -/
inductive Instr where
  /-- `H.START` (41_extractor.md R124). -/
  | hStart
  /-- `H.SKIP` (R123): `d` is the garbage byte. -/
  | hSkip (d : Byte)
  /-- `H.END` (R125). -/
  | hEnd
  /-- `F.ESC` (R128). -/
  | fEsc
  /-- `F.STOP` (R131). -/
  | fStop
  /-- `F.START` (R132). -/
  | fStart
  /-- `F.DATA` (R127): `d` is the literal byte. -/
  | fData (d : Byte)
  /-- `F.END` (R126). -/
  | fEnd
  /-- `E.LIT` (R130): `d` is the literal byte. -/
  | eLit (d : Byte)
  /-- `E.END` (R129). -/
  | eEnd
  /-- `FRM.BYTE(b, last)` (40_framer.md R102, 30_encoding.md R85). -/
  | frmByte (data : Byte) (last : Bool)
  /-- `FRM.ENCODE(P)` (40_framer.md R100, 30_encoding.md R87). -/
  | frmEncode (payload : List Byte)
  /-- `EXT.POLL` (41_extractor.md R120). -/
  | extPoll
  /-- `IB.APPEND(b)` (20_memory.md R54). -/
  | ibAppend (data : Byte)
  /-- `CRC.STEP` on the caller's register (42_crc_engine.md R160). -/
  | crcStep (u : CrcUnit) (bit : Bool)
  /-- `CRC.BYTE` on the caller's register (R161). -/
  | crcByte (u : CrcUnit) (v : Byte)
  /-- `CRC.DRAIN` on the caller's register (R162). -/
  | crcDrain (u : CrcUnit)
  /-- `CRC.SEED` of the caller's register (R163). -/
  | crcSeed (u : CrcUnit) (v : Byte)
  deriving DecidableEq, Repr

/-- The instruction a wire symbol is. -/
def Symbol.instr : Symbol → Instr
  | .hStart => .hStart
  | .hSkip d => .hSkip d
  | .hEnd => .hEnd
  | .fEsc => .fEsc
  | .fStop => .fStop
  | .fStart => .fStart
  | .fData d => .fData d
  | .fEnd => .fEnd
  | .eLit d => .eLit d
  | .eEnd => .eEnd

/-- The interfaces an agent invokes an operation through (00_scope.md R8 and R9). The CRC operations
are "not invocable by the host on their own", so they have none. -/
inductive Port where
  | frmByte
  | frmEncode
  | extPoll
  | ibAppend
  deriving DecidableEq, Repr

/-- Where an encoded word stands: the decoder's input in a scan state (30_encoding.md R80), or the
operand of an invoked operation (R85 to R87). -/
inductive Format where
  | wire (st : ScanState)
  | call (p : Port)
  deriving DecidableEq, Repr

/-- One invocation by an agent: the interface and the operand's bytes, lowest bits first. -/
structure Call where
  port : Port
  bytes : List Byte
  deriving DecidableEq, Repr

end Sys2Proof
end

