-- ==== Sys2Proof/WellFormed.lean ====
section
/-! DEFINITION. The operand checks of the opcode table's rows: which values an instruction admits
under a configuration (30_encoding.md R80, R85, R87; 40_framer.md R101). -/

namespace Sys2Proof

/-- The instruction's operands are ones its row admits: the byte of `H.SKIP` is not `START`, the byte
of `F.DATA` is in no tag (R80), and the payload of `FRM.ENCODE` has a byte (R87). -/
def Instr.wellFormed (c : Config) : Instr → Bool
  | .hStart => true
  | .hSkip d => d != c.start
  | .hEnd => true
  | .fEsc => true
  | .fStop => true
  | .fStart => true
  | .fData d => !c.isTag d
  | .fEnd => true
  | .eLit _ => true
  | .eEnd => true
  | .frmByte _ _ => true
  | .frmEncode payload => !payload.isEmpty
  | .extPoll => true
  | .ibAppend _ => true
  | .crcStep _ _ => true
  | .crcByte _ _ => true
  | .crcDrain _ => true
  | .crcSeed _ _ => true

end Sys2Proof
end

