-- ==== Sys2Proof/Decode.lean ====
section
/-! DEFINITION. The decoder of wire symbols and of operand words (30_encoding.md R80 to R87), total on
any bytes and rejecting by name, and the encoder written from the same table. -/

namespace Sys2Proof

/-- Why bytes are no word of a format. -/
inductive DecodeError where
  /-- The format's word has another number of bytes (R85 to R87). -/
  | wrongLength
  /-- A bit above the 9-bit word is set (R80, R85). -/
  | strayBits
  /-- The payload of `FRM.ENCODE` is empty (40_framer.md R101). -/
  | emptyPayload
  deriving DecidableEq, Repr

/-- The outcome of decoding. -/
inductive Decoded where
  | ok (i : Instr)
  | rejected (e : DecodeError)
  deriving DecidableEq, Repr

/-- The whole decoder of wire bytes (30_encoding.md R80): by scan state and byte, `none` standing for
the end of the available bytes. -/
def decodeSymbol (c : Config) : ScanState → Option Byte → Symbol
  | .hunt, none => .hEnd
  | .hunt, some b => if b = c.start then .hStart else .hSkip b
  | .frame, none => .fEnd
  | .frame, some b =>
    if b = c.esc then .fEsc
    else if b = c.stop then .fStop
    else if b = c.start then .fStart
    else .fData b
  | .escd, none => .eEnd
  | .escd, some b => .eLit b

/-- A 9-bit word in two bytes, the low eight bits first: its low byte and its bit 8. DESIGN CHOICE
(log 20): bits 15 to 9 of the two bytes must be 0. -/
def word9 : List Byte → Except DecodeError (Byte × Bool)
  | [lo, hi] =>
    if hi = 0x00#8 then .ok (lo, false)
    else if hi = 0x01#8 then .ok (lo, true)
    else .error .strayBits
  | _ => .error .wrongLength

/-- The decoder input `{eob, b[7:0]}` of R80 as an available byte or the end. -/
def wireInput (b : Byte) (eob : Bool) : Option Byte := if eob then none else some b

/-- The instruction the bytes of a word in a format stand for. -/
def decode (c : Config) : Format → List Byte → Decoded
  | .wire st, bytes =>
    match word9 bytes with
    | .ok (b, eob) => .ok (decodeSymbol c st (wireInput b eob)).instr
    | .error e => .rejected e
  | .call .frmByte, bytes =>
    match word9 bytes with
    | .ok (data, last) => .ok (.frmByte data last)
    | .error e => .rejected e
  | .call .frmEncode, payload =>
    if payload.isEmpty then .rejected .emptyPayload else .ok (.frmEncode payload)
  | .call .extPoll, bytes =>
    if bytes.isEmpty then .ok .extPoll else .rejected .wrongLength
  | .call .ibAppend, bytes =>
    match bytes with
    | [data] => .ok (.ibAppend data)
    | _ => .rejected .wrongLength

/-- The two bytes of a 9-bit word. -/
def bytes9 (lo : Byte) (bit8 : Bool) : List Byte := [lo, if bit8 then 0x01#8 else 0x00#8]

/-- The format and bytes of an instruction, from the table of R80 and the formats of R85 to R87. The
unused bits of the end symbols are written 0. The CRC operations take "register values, not encoded
words" (R87): they have none. -/
def encode (c : Config) : Instr → Option (Format × List Byte)
  | .hStart => some (.wire .hunt, bytes9 c.start false)
  | .hSkip d => some (.wire .hunt, bytes9 d false)
  | .hEnd => some (.wire .hunt, bytes9 0x00#8 true)
  | .fEsc => some (.wire .frame, bytes9 c.esc false)
  | .fStop => some (.wire .frame, bytes9 c.stop false)
  | .fStart => some (.wire .frame, bytes9 c.start false)
  | .fData d => some (.wire .frame, bytes9 d false)
  | .fEnd => some (.wire .frame, bytes9 0x00#8 true)
  | .eLit d => some (.wire .escd, bytes9 d false)
  | .eEnd => some (.wire .escd, bytes9 0x00#8 true)
  | .frmByte data last => some (.call .frmByte, bytes9 data last)
  | .frmEncode payload => some (.call .frmEncode, payload)
  | .extPoll => some (.call .extPoll, [])
  | .ibAppend data => some (.call .ibAppend, [data])
  | .crcStep _ _ => none
  | .crcByte _ _ => none
  | .crcDrain _ => none
  | .crcSeed _ _ => none

/-- The bytes of a number, lowest first. -/
def numberBytes (n w : Nat) : List Byte :=
  (List.range n).map fun k => BitVec.ofNat 8 (w / 256 ^ k)

/-- The format a table word of so many bits is read in. DESIGN CHOICE (log 15): the opcode table gives
a 9-bit word no scan state, so such a word is read in `FRAME`, where five rows of the table stand;
an 8-bit word is the operand of `IB.APPEND`, and a row without bits and operand is `EXT.POLL`. -/
def tableFormat : Nat → Option Format
  | 16 => some (.wire .frame)
  | 8 => some (.call .ibAppend)
  | 0 => some (.call .extPoll)
  | _ => none

/-- What the decoder reads from a word numbered as spec/opcode_table.json numbers it, under the
default configuration. -/
def decodeTableWord (nbits w : Nat) : Option Instr :=
  match tableFormat nbits with
  | none => none
  | some f =>
    if w < 2 ^ nbits then
      match decode Config.default f (numberBytes (nbits / 8) w) with
      | .ok i => some i
      | .rejected _ => none
    else none

end Sys2Proof
end

