-- ==== Sys2Proof/Machine/State.lean ====
section
/-! DEFINITION. The state of one CORE: every register, memory and output that 10_state.md names, the
reasons an operation is refused, and the state after reset. -/

namespace Sys2Proof.Machine

/-- The events of 60_exceptions.md R180. -/
inductive Event where
  | incomplete
  | resyncDrop
  | resyncRestart
  | crcMismatch
  | malformedShort
  deriving DecidableEq, Repr

/-- A diagnostic report: it "has no defined content beyond its occurrence" (60_exceptions.md R188). -/
inductive Report where
  | report
  deriving DecidableEq, Repr

/-- `X.res`, the result of the last `EXT.POLL` (10_state.md R29). -/
structure Result where
  complete : Bool
  valid : Bool
  payload : List Byte
  deriving DecidableEq, Repr

/-- The Framer's registers (10_state.md R21, R22). -/
structure Framer where
  /-- `F.crc`, the running remainder. -/
  crc : Byte
  /-- `F.pos`, the position modulo 8 of the next payload byte; 0 when no block is open. -/
  pos : Fin 8
  deriving DecidableEq, Repr

/-- The Extractor's registers (10_state.md R25 to R29), both forms of the accumulation kept
(log 14). -/
structure Extractor where
  /-- The model's own: a poll's scan is under way (41_extractor.md R120 to R122; log 4). -/
  busy : Bool
  /-- `X.st`, the scan state. -/
  st : ScanState
  /-- `X.cur`, the offset of the next byte to read. -/
  cur : Nat
  /-- `X.acc`, every literal since the start tag. -/
  acc : List Byte
  /-- `X.crc`, the running remainder of the register form. -/
  crc : Byte
  /-- `X.hold`, the last literal, which may be the checksum. -/
  hold : Byte
  /-- `X.hv`, `X.hold` is valid. -/
  hv : Bool
  /-- `X.cnt`, committed payload bytes modulo 8. -/
  cnt : Fin 8
  /-- `X.pv`, at least one payload byte is committed. -/
  pv : Bool
  /-- `X.pay`, the committed payload. -/
  pay : List Byte
  /-- `X.res`, the result of the last poll. -/
  res : Result
  /-- The model's own: the events of the current or last poll, oldest first (R180; log 13). -/
  events : List Event
  deriving DecidableEq, Repr

/-- The state of one CORE (10_state.md). -/
structure State where
  /-- The configuration constants (R20). -/
  cfg : Config
  /-- The Framer (R21 to R23). -/
  f : Framer
  /-- The Extractor (R24 to R29). -/
  x : Extractor
  /-- IB, the inbound buffer, oldest byte first (R31). -/
  ib : List Byte
  /-- OB, the outbound sink, oldest byte first (R30). -/
  ob : List Byte
  /-- The reports the diagnostic sink has received, oldest first (60_exceptions.md R188; log 12). -/
  diag : List Report
  /-- The model's own: the calls of the agents still to be performed, in the total order of
  20_memory.md R60 (log 3). -/
  agenda : List Call
  deriving DecidableEq, Repr

/-- A fault. CORE has none: "There is no fatal error path within this core" (60_exceptions.md R185,
R190), so no operation raises one and the type has no constructor. -/
inductive Fault where
  deriving DecidableEq, Repr

/-- Why an operation is refused: it has no meaning in the spec for these operands. -/
inductive Refusal where
  /-- Raised by an arm of `exec` without a meaning; safe. -/
  | notModelled (mnemonic : String)
  /-- Raised by `FRM.ENCODE([])` (40_framer.md R101); safe. -/
  | emptyPayload
  /-- Raised by `IB.APPEND` at a full bounded IB (20_memory.md R54); safe. -/
  | inboundBufferFull
  /-- Raised by `FRM.BYTE` and `FRM.ENCODE` that would emit past a bounded OB (20_memory.md R57,
  93_implementation_defined.md U8); safe. -/
  | outboundSinkFull
  /-- Raised by `step` in a configuration whose tags are not pairwise distinct (00_scope.md R4);
  safe. -/
  | tagsNotDistinct
  /-- Raised by a wire symbol's meaning where the condition of its rule does not hold (41_extractor.md
  R122, 30_encoding.md R82: exactly one symbol rule applies); safe. -/
  | symbolDoesNotApply
  /-- Raised by `step` during a scan whose cursor is past the end of IB, which no rule reaches
  (20_memory.md R52); safe. -/
  | cursorPastEnd
  /-- Raised by `step` for a call whose operand bytes have not the format of 30_encoding.md R85 to
  R87; safe. -/
  | malformedCall (e : DecodeError)
  deriving DecidableEq, Repr

/-- The result an `INCOMPLETE` poll writes (10_state.md R29). -/
def Result.incomplete : Result where
  complete := false
  valid := false
  payload := []

/-- The Framer after reset. DESIGN CHOICE (log 1): `F.crc` is unspecified (10_state.md R34) and named
0. -/
def Framer.reset : Framer where
  crc := 0x00#8
  pos := 0

/-- The Extractor after reset. DESIGN CHOICE (log 1): every register here is unspecified (10_state.md
R34) and named zero, empty or `HUNT`. -/
def Extractor.reset : Extractor where
  busy := false
  st := .hunt
  cur := 0
  acc := []
  crc := 0x00#8
  hold := 0x00#8
  hv := false
  cnt := 0
  pv := false
  pay := []
  res := Result.incomplete
  events := []

/-- The state after reset of a CORE with these parameters. Reset is the creation of a CORE
(10_state.md R34, 70_reset_and_hazards.md R210, R211): its configuration is "the instance's parameter
values", no block is open, IB and OB are empty, there is no report and nothing is invoked. -/
def State.create (parameters : Config) : State where
  cfg := parameters
  f := Framer.reset
  x := Extractor.reset
  ib := []
  ob := []
  diag := []
  agenda := []

/-- The state after reset where no parameters are given: "the defaults of rule R20" (10_state.md
R34). -/
def State.reset : State := State.create Config.default

end Sys2Proof.Machine
end

