-- ==== Sys2Proof/Machine/Ops.lean ====
section
/-! DEFINITION. The shared operations on the two byte sequences and on the event trace: the memory
primitives of 20_memory.md, and raising an event (60_exceptions.md R180, R187), which is all that
stands in CORE where another machine takes an exception. -/

namespace Sys2Proof.Machine

/-- A memory as address and byte pairs: the bytes of a sequence at their offsets from the front
(20_memory.md R50). -/
def Memory.cells (m : List Byte) : List Host.Cell :=
  m.zipIdx.map fun (b, i) => (i, b)

/-- The one canonical form of a memory's cells: the addresses are 0, 1, ... in order, with no gap and
no repeat, and an address that is not listed has no byte (20_memory.md R50, R52, R62). -/
def Memory.wf (cells : List Host.Cell) : Bool :=
  cells.map Prod.fst == List.range cells.length

/-- Whether so many bytes fit a capacity, `none` being unbounded (20_memory.md R50, R57). -/
def fits : Option Nat → Nat → Bool
  | none, _ => true
  | some cap, n => decide (n ≤ cap)

namespace State

/-- `IbLen()` (20_memory.md R51). -/
def ibLen (s : State) : Nat := s.ib.length

/-- `IB[i]` (20_memory.md R52): no byte at an offset past the end. -/
def ibRead (s : State) (i : Nat) : Option Byte := s.ib[i]?

/-- The byte of OB at an offset. No operation of CORE reads OB (20_memory.md R57): this is the read
that statements about OB use. -/
def obRead (s : State) (i : Nat) : Option Byte := s.ob[i]?

/-- `IbConsume(n)` (20_memory.md R53), used only for `n ≤ IbLen()`. -/
def ibConsume (s : State) (n : Nat) : State := { s with ib := s.ib.drop n }

/-- `IbAppend(b)` (20_memory.md R54). -/
def ibAppend (s : State) (b : Byte) : State := { s with ib := s.ib ++ [b] }

/-- `emit(b)` (20_memory.md R57). -/
def emit (s : State) (b : Byte) : State := { s with ob := s.ob ++ [b] }

/-- `raise <Event>` (00_scope.md section 7, 60_exceptions.md R180, R187): the event joins the poll's
trace and "never transfers control". -/
def raise (s : State) (e : Event) : State :=
  { s with x := { s.x with events := s.x.events ++ [e] } }

/-- One report to the diagnostic sink; with no sink attached it is dropped (60_exceptions.md R188). -/
def report (s : State) : State :=
  if s.cfg.diagSink then { s with diag := s.diag ++ [.report] } else s

/-- `X.cur <- n` (10_state.md R27). -/
def setCur (s : State) (n : Nat) : State := { s with x := { s.x with cur := n } }

/-- `X.st <- st` (10_state.md R26). -/
def setSt (s : State) (st : ScanState) : State := { s with x := { s.x with st := st } }

/-- `F.pos <- p` (10_state.md R22). -/
def setPos (s : State) (p : Fin 8) : State := { s with f := { s.f with pos := p } }

/-- The value of a unit's remainder register (10_state.md R21, R28, R33). -/
def crcReg (s : State) : CrcUnit → Byte
  | .framer => s.f.crc
  | .extractor => s.x.crc

/-- Load a unit's remainder register (10_state.md R21, R28, R33). -/
def setCrcReg (s : State) (u : CrcUnit) (v : Byte) : State :=
  match u with
  | .framer => { s with f := { s.f with crc := v } }
  | .extractor => { s with x := { s.x with crc := v } }

end State

/-- End an operation: it is refused where OB would be longer than its capacity (20_memory.md R57,
93_implementation_defined.md U8). OB only grows, so the length at the end decides for every `emit`. -/
def withinSink (t : State) : Host.Outcome State Fault Refusal :=
  if fits t.cfg.obCap t.ob.length then .next t else .refused .outboundSinkFull

end Sys2Proof.Machine
end

