-- ==== Sys2Proof/Machine/Buffer.lean ====
section
/-! DEFINITION. The receive collaborator's operation on the inbound buffer: the meaning of
`IB.APPEND` (20_memory.md R54). -/

namespace Sys2Proof.Machine

/-- `IB.APPEND(b)` (20_memory.md R54): refused when a bounded IB is full. -/
def execIbAppend (data : Byte) (s : State) : Host.Outcome State Fault Refusal :=
  if fits s.cfg.ibCap (s.ibLen + 1) then .next (s.ibAppend data) else .refused .inboundBufferFull

end Sys2Proof.Machine
end

