-- ==== Sys2Proof/Machine/Operands.lean ====
section
/-! DEFINITION. Operand forms: the bits of a byte in feeding order, and the wire symbol the Extractor's
cursor stands on. -/

namespace Sys2Proof.Machine

/-- The bits of a byte "MSB-first": `v[7]` down to `v[0]` (00_scope.md R10, 20_memory.md R58). -/
def bitsMsbFirst (v : Byte) : List Bool :=
  [v.getLsbD 7, v.getLsbD 6, v.getLsbD 5, v.getLsbD 4, v.getLsbD 3, v.getLsbD 2, v.getLsbD 1,
    v.getLsbD 0]

/-- The bit as the weight-1 bit of a byte (42_crc_engine.md R160). -/
def bitByte (bit : Bool) : Byte := if bit then 0x01#8 else 0x00#8

/-- The symbol at `X.cur`: first the end test, then the byte read and classified (41_extractor.md R122,
30_encoding.md R80). None when the cursor is past the end, which no rule reaches. -/
def symbolAt (s : State) : Option Symbol :=
  match s.ibRead s.x.cur with
  | some b => some (decodeSymbol s.cfg s.x.st (some b))
  | none => if s.x.cur = s.ibLen then some (decodeSymbol s.cfg s.x.st none) else none

end Sys2Proof.Machine
end

