-- ==== Sys2Proof/Machine/Crc.lean ====
section
/-! DEFINITION. The CRC Engine (42_crc_engine.md): the pure functions, their use on the register of
the calling unit, and the meanings of `CRC.STEP`, `CRC.BYTE`, `CRC.DRAIN` and `CRC.SEED`. -/

namespace Sys2Proof.Machine

/-- `CrcStep(r, bit, poly)` (42_crc_engine.md R160): XOR first, on the unshifted remainder, then shift,
OR the bit in and keep 8 bits. -/
def crcStep (r : Byte) (bit : Bool) (poly : Byte) : Byte :=
  ((if r.getLsbD 7 then r ^^^ poly else r) <<< 1) ||| bitByte bit

/-- `CrcByte(r, v, poly)` (R161): the eight bits of `v`, most significant first. -/
def crcByte (r v poly : Byte) : Byte :=
  (bitsMsbFirst v).foldl (fun acc bit => crcStep acc bit poly) r

/-- `CrcDrain(r, poly)` (R162): the eight zero pad bits. -/
def crcDrain (r poly : Byte) : Byte := crcByte r 0x00#8 poly

/-- The loop of `CrcPayload` from index `i` with remainder `r` (R165): seed at every eighth byte, then
feed the byte. -/
def crcRun (poly : Byte) : Nat → Byte → List Byte → Byte
  | _, r, [] => r
  | i, r, b :: rest => crcRun poly (i + 1) (crcByte (if i % 8 = 0 then b else r) b poly) rest

/-- `CrcPayload(P, poly)` (R165); "`CrcPayload([])` is not defined". The remainder before index 0 is
never used. -/
def crcPayload (p : List Byte) (poly : Byte) : Option Byte :=
  match p with
  | [] => none
  | b :: _ => some (crcDrain (crcRun poly 0 b p) poly)

/-- One `CrcStep` on a unit's register, with `POLY`. -/
def stepReg (s : State) (u : CrcUnit) (bit : Bool) : State :=
  s.setCrcReg u (crcStep (s.crcReg u) bit s.cfg.poly)

/-- Feed a byte into a unit's register (40_framer.md R106, 41_extractor.md R142). -/
def feedReg (s : State) (u : CrcUnit) (v : Byte) : State :=
  s.setCrcReg u (crcByte (s.crcReg u) v s.cfg.poly)

/-- Drain a unit's register (40_framer.md R107). -/
def drainReg (s : State) (u : CrcUnit) : State :=
  s.setCrcReg u (crcDrain (s.crcReg u) s.cfg.poly)

/-- Seed a unit's register (40_framer.md R103, 41_extractor.md R142). -/
def seedReg (s : State) (u : CrcUnit) (v : Byte) : State := s.setCrcReg u v

/-- `CRC.STEP` (R160). DEDUCED (log 11): the operand `r` is the caller's register, `poly` is `POLY`,
and the result goes back to that register. -/
def execCrcStep (u : CrcUnit) (bit : Bool) (s : State) : Host.Outcome State Fault Refusal :=
  .next (stepReg s u bit)

/-- `CRC.BYTE` (R161), on the caller's register (log 11). -/
def execCrcByte (u : CrcUnit) (v : Byte) (s : State) : Host.Outcome State Fault Refusal :=
  .next (feedReg s u v)

/-- `CRC.DRAIN` (R162), on the caller's register (log 11). -/
def execCrcDrain (u : CrcUnit) (s : State) : Host.Outcome State Fault Refusal :=
  .next (drainReg s u)

/-- `CRC.SEED` (R163): the byte is loaded into the caller's remainder register. -/
def execCrcSeed (u : CrcUnit) (v : Byte) (s : State) : Host.Outcome State Fault Refusal :=
  .next (seedReg s u v)

end Sys2Proof.Machine
end

