-- ==== Sys2Proof/Machine/Flags.lean ====
section
/-! DEFINITION. The only flags of CORE, the poll result `X.res` (10_state.md R29): how each ending of
a poll computes it and what it raises (41_extractor.md R133 to R138), and the numeric codings of
results, events and scan states. -/

namespace Sys2Proof.Machine

/-- The status coding `{complete, valid}` of a result (30_encoding.md R86). -/
def Result.status (r : Result) : BitVec 2 :=
  BitVec.ofBool r.complete ++ BitVec.ofBool r.valid

/-- The numeric code of an event (60_exceptions.md R180). -/
def Event.code : Event → Nat
  | .incomplete => 1
  | .resyncDrop => 2
  | .resyncRestart => 3
  | .crcMismatch => 4
  | .malformedShort => 5

/-- The coding of `X.st` (10_state.md R26); not observable. -/
def scanStateCode : ScanState → BitVec 2
  | .hunt => 0#2
  | .frame => 1#2
  | .escd => 2#2

/-- The candidate payload and the received remainder of a frame's literals (41_extractor.md R133);
none without a literal. -/
def splitLiterals (acc : List Byte) : Option (List Byte × Byte) :=
  acc.getLast?.map fun rx => (acc.dropLast, rx)

/-- The result of a frame with these literals (41_extractor.md R133 to R136). -/
def frameResult (poly : Byte) (acc : List Byte) : Result :=
  match splitLiterals acc with
  | none => { complete := true, valid := false, payload := [] }
  | some (pl, rx) => { complete := true, valid := crcPayload pl poly == some rx, payload := pl }

/-- The result of the register form (41_extractor.md R142, `stop`), which computes the same. -/
def registerResult (poly : Byte) (x : Extractor) : Result :=
  if x.hv && x.pv then
    { complete := true, valid := crcDrain x.crc poly == x.hold, payload := x.pay }
  else { complete := true, valid := false, payload := [] }

/-- The event of a completed frame (41_extractor.md R134, R135, R137): a frame without payload is
`MALFORMED_SHORT`, tested before the checksum (60_exceptions.md R186). -/
def frameEvent (r : Result) : List Event :=
  if r.payload.isEmpty then [.malformedShort] else if r.valid then [] else [.crcMismatch]

/-- Raise events in order. -/
def raiseAll (s : State) (es : List Event) : State := es.foldl State.raise s

/-- Write `X.res` and end the scan (41_extractor.md R137). -/
def endScan (s : State) (r : Result) : State :=
  { s with x := { s.x with busy := false, res := r } }

/-- `return INCOMPLETE` (41_extractor.md R125, R126, R129). -/
def returnIncomplete (s : State) : State := endScan (s.raise .incomplete) Result.incomplete

/-- Report a frame that is not valid, before the poll returns (41_extractor.md R138, 60_exceptions.md
R188). -/
def reportUnlessValid (s : State) (r : Result) : State := if r.valid then s else s.report

/-- Completion: `return FRAME(payload, valid)` (41_extractor.md R133 to R138). -/
def returnFrame (s : State) : State :=
  let r := frameResult s.cfg.poly s.x.acc
  endScan (reportUnlessValid (raiseAll s (frameEvent r)) r) r

end Sys2Proof.Machine
end

