-- ==== Sys2Proof/Machine/Extractor.lean ====
section
/-! DEFINITION. The Extractor (41_extractor.md): the meanings of the ten wire symbols and of
`EXT.POLL`. -/

namespace Sys2Proof.Machine

/-- Empty the accumulation, in both forms (41_extractor.md R121, R124, R132, R142 `clear`). -/
def clearAcc (s : State) : State :=
  { s with x := { s.x with acc := [], hv := false, pv := false, cnt := 0, pay := [] } }

/-- The held byte was payload: commit it (41_extractor.md R142): seed at every eighth byte, feed,
append. -/
def commitHeld (s : State) : State :=
  let t := feedReg (if s.x.cnt = 0 then seedReg s .extractor s.x.hold else s) .extractor s.x.hold
  { t with x := { t.x with pay := t.x.pay ++ [t.x.hold], pv := true, cnt := t.x.cnt + 1 } }

/-- Take a literal (41_extractor.md R127, R130), in both forms (R142 `literal`). -/
def takeLiteral (s : State) (b : Byte) : State :=
  let t := if s.x.hv then commitHeld s else s
  { t with x := { t.x with acc := t.x.acc ++ [b], hold := b, hv := true } }

/-- Advance the cursor by the one byte read (10_state.md R27). -/
def advance (s : State) : State := s.setCur (s.x.cur + 1)

/-- Remove the garbage before the cursor, with `RESYNC_DROP` if there is any (41_extractor.md R124,
R125). -/
def dropGarbage (s : State) : State :=
  (if s.x.cur = 0 then s else s.raise .resyncDrop).ibConsume s.x.cur

/-- Anchor on the start tag now at offset 0: `X.cur <- 1`, `X.acc <- []`, `X.st <- FRAME`
(41_extractor.md R124, R132). -/
def anchor (s : State) : State := ((clearAcc s).setCur 1).setSt .frame

/-- The action of `H.START` (41_extractor.md R124). -/
def actHStart (s : State) : State := anchor (dropGarbage s)

/-- The action of `H.SKIP` (R123). -/
def actHSkip (s : State) : State := advance s

/-- The action of `H.END` (R125). -/
def actHEnd (s : State) : State := returnIncomplete (dropGarbage s)

/-- The action of `F.ESC` (R128). -/
def actFEsc (s : State) : State := (advance s).setSt .escd

/-- The action of `F.STOP` (R131, then completion). -/
def actFStop (s : State) : State := returnFrame (s.ibConsume (s.x.cur + 1))

/-- The action of `F.START` (R132). -/
def actFStart (s : State) : State := anchor ((s.raise .resyncRestart).ibConsume s.x.cur)

/-- The action of `F.DATA` (R127). -/
def actFData (d : Byte) (s : State) : State := advance (takeLiteral s d)

/-- The action of `F.END` (R126). -/
def actFEnd (s : State) : State := returnIncomplete s

/-- The action of `E.LIT` (R130). -/
def actELit (d : Byte) (s : State) : State := (advance (takeLiteral s d)).setSt .frame

/-- The action of `E.END` (R129). -/
def actEEnd (s : State) : State := returnIncomplete s

/-- The action of a symbol. -/
def symbolAction : Symbol → State → State
  | .hStart => actHStart
  | .hSkip _ => actHSkip
  | .hEnd => actHEnd
  | .fEsc => actFEsc
  | .fStop => actFStop
  | .fStart => actFStart
  | .fData d => actFData d
  | .fEnd => actFEnd
  | .eLit d => actELit d
  | .eEnd => actEEnd

/-- A symbol's meaning: its action where it is the symbol at the cursor. Elsewhere the condition of its
rule does not hold and it has no meaning (41_extractor.md R122; log 5). -/
def onSymbol (sym : Symbol) (s : State) : Host.Outcome State Fault Refusal :=
  if symbolAt s = some sym then .next (symbolAction sym s) else .refused .symbolDoesNotApply

/-- `H.START` (41_extractor.md R124). -/
def execHStart (s : State) : Host.Outcome State Fault Refusal := onSymbol .hStart s

/-- `H.SKIP` (R123). -/
def execHSkip (d : Byte) (s : State) : Host.Outcome State Fault Refusal := onSymbol (.hSkip d) s

/-- `H.END` (R125). -/
def execHEnd (s : State) : Host.Outcome State Fault Refusal := onSymbol .hEnd s

/-- `F.ESC` (R128). -/
def execFEsc (s : State) : Host.Outcome State Fault Refusal := onSymbol .fEsc s

/-- `F.STOP` (R131). -/
def execFStop (s : State) : Host.Outcome State Fault Refusal := onSymbol .fStop s

/-- `F.START` (R132). -/
def execFStart (s : State) : Host.Outcome State Fault Refusal := onSymbol .fStart s

/-- `F.DATA` (R127). -/
def execFData (d : Byte) (s : State) : Host.Outcome State Fault Refusal := onSymbol (.fData d) s

/-- `F.END` (R126). -/
def execFEnd (s : State) : Host.Outcome State Fault Refusal := onSymbol .fEnd s

/-- `E.LIT` (R130). -/
def execELit (d : Byte) (s : State) : Host.Outcome State Fault Refusal := onSymbol (.eLit d) s

/-- `E.END` (R129). -/
def execEEnd (s : State) : Host.Outcome State Fault Refusal := onSymbol .eEnd s

/-- Scan initialisation (41_extractor.md R121), with an empty event trace for the new poll. -/
def beginScan (s : State) : State :=
  let t := clearAcc s
  { t with x := { t.x with busy := true, st := .hunt, cur := 0, events := [] } }

/-- One step of the scan (41_extractor.md R122). -/
def scanStep (s : State) : State :=
  match symbolAt s with
  | some sym => symbolAction sym s
  | none => s

/-- The loop of R120: scan steps while the scan is under way, at most so many. -/
def scanLoop : Nat → State → State
  | 0, s => s
  | n + 1, s => if s.x.busy then scanLoop n (scanStep s) else s

/-- The whole poll: a scan "ends after at most `IbLen() + 1` steps" (41_extractor.md R139). -/
def poll (s : State) : State := scanLoop (s.ibLen + 1) (beginScan s)

/-- `EXT.POLL` (41_extractor.md R120 to R137), atomic (20_memory.md R60; log 4). -/
def execExtPoll (s : State) : Host.Outcome State Fault Refusal := .next (poll s)

end Sys2Proof.Machine
end

