-- ==== Sys2Proof/Machine/Framer.lean ====
section
/-! DEFINITION. The Framer (40_framer.md): the meanings of `FRM.BYTE` and `FRM.ENCODE`. -/

namespace Sys2Proof.Machine

/-- Block open (40_framer.md R103): at position 0 emit the start tag and seed with the byte. -/
def openBlock (s : State) (b : Byte) : State :=
  if s.f.pos = 0 then seedReg (s.emit s.cfg.start) .framer b else s

/-- Escape (R104): emit the escape tag before a byte that is a tag. -/
def escapeByte (s : State) (b : Byte) : State :=
  if s.cfg.isTag b then s.emit s.cfg.esc else s

/-- Block close (R107, R108): drain, emit the remainder bare and the stop tag, position 0. -/
def closeBlock (s : State) : State :=
  let t := drainReg s .framer
  ((t.emit t.f.crc).emit t.cfg.stop).setPos 0

/-- The close test and the position update (R107, R108). -/
def closeOrAdvance (s : State) (last : Bool) : State :=
  if s.f.pos = 7 ∨ last = true then closeBlock s else s.setPos (s.f.pos + 1)

/-- `FRM.BYTE` (R102): the actions of R103 to R108 in order. -/
def frameByte (s : State) (b : Byte) (last : Bool) : State :=
  closeOrAdvance (feedReg ((escapeByte (openBlock s b) b).emit b) .framer b) last

/-- `FRM.ENCODE` (R100, 30_encoding.md R91): `FRM.BYTE` for each byte, `last` on the final one. -/
def frameAll (s : State) : List Byte → State
  | [] => s
  | [b] => frameByte s b true
  | b :: rest => frameAll (frameByte s b false) rest

/-- `FRM.BYTE(b, last)` (40_framer.md R102 to R108). -/
def execFrmByte (data : Byte) (last : Bool) (s : State) : Host.Outcome State Fault Refusal :=
  withinSink (frameByte s data last)

/-- `FRM.ENCODE(P)` (40_framer.md R100, R101). DEDUCED (log 7): with a block already open the expansion
runs, and the bytes continue that block (R110, 70_reset_and_hazards.md R216). -/
def execFrmEncode (payload : List Byte) (s : State) : Host.Outcome State Fault Refusal :=
  if payload.isEmpty then .refused .emptyPayload else withinSink (frameAll s payload)

end Sys2Proof.Machine
end

