-- ==== Sys2Proof/Machine/Dispatch.lean ====
section
/-! DEFINITION. The dispatch of an instruction to its meaning. -/

namespace Sys2Proof.Machine

def exec (i : Instr) (s : State) : Host.Outcome State Fault Refusal :=
  match i with
  | .hStart => Sys2Proof.Machine.execHStart s
  | .hSkip d => Sys2Proof.Machine.execHSkip d s
  | .hEnd => Sys2Proof.Machine.execHEnd s
  | .fEsc => Sys2Proof.Machine.execFEsc s
  | .fStop => Sys2Proof.Machine.execFStop s
  | .fStart => Sys2Proof.Machine.execFStart s
  | .fData d => Sys2Proof.Machine.execFData d s
  | .fEnd => Sys2Proof.Machine.execFEnd s
  | .eLit d => Sys2Proof.Machine.execELit d s
  | .eEnd => Sys2Proof.Machine.execEEnd s
  | .frmByte data last => Sys2Proof.Machine.execFrmByte data last s
  | .frmEncode payload => Sys2Proof.Machine.execFrmEncode payload s
  | .extPoll => Sys2Proof.Machine.execExtPoll s
  | .ibAppend data => Sys2Proof.Machine.execIbAppend data s
  | .crcStep u bit => Sys2Proof.Machine.execCrcStep u bit s
  | .crcByte u v => Sys2Proof.Machine.execCrcByte u v s
  | .crcDrain u => Sys2Proof.Machine.execCrcDrain u s
  | .crcSeed u v => Sys2Proof.Machine.execCrcSeed u v s

end Sys2Proof.Machine
end

