-- ==== Sys2Proof/Machine/Fetch.lean ====
section
/-! DEFINITION. What the next step runs: a scan under way goes on with the symbol at its cursor,
otherwise the next call of the agenda is performed (20_memory.md R60; logs 3 and 4). -/

namespace Sys2Proof.Machine

/-- What there is to run next. -/
inductive Fetched where
  /-- Nothing is invoked: "an idle block is simply a block on which no operation is invoked"
  (60_exceptions.md R194). -/
  | idle
  /-- An instruction, and the state it runs in. -/
  | run (i : Instr) (s : State)
  /-- What is there is no operation. -/
  | stop (r : Refusal)
  deriving DecidableEq, Repr

/-- The refusal of a call that does not decode. -/
def refusalOf : DecodeError → Refusal
  | .emptyPayload => .emptyPayload
  | .wrongLength => .malformedCall .wrongLength
  | .strayBits => .malformedCall .strayBits

/-- Decode a call of the agenda. -/
def decodeCall (cfg : Config) (c : Call) : Decoded := decode cfg (.call c.port) c.bytes

/-- The next symbol of a scan under way (41_extractor.md R122). -/
def fetchSymbol (s : State) : Fetched :=
  match symbolAt s with
  | some sym => .run sym.instr s
  | none => .stop .cursorPastEnd

/-- The next call of the agents (20_memory.md R60), taken off the agenda. -/
def fetchCall (s : State) : Fetched :=
  match s.agenda with
  | [] => .idle
  | c :: rest =>
    match decodeCall s.cfg c with
    | .ok i => .run i { s with agenda := rest }
    | .rejected e => .stop (refusalOf e)

/-- What the next step runs. A configuration with equal tags is none (00_scope.md R4). -/
def fetch (s : State) : Fetched :=
  if s.cfg.tagsDistinct then (if s.x.busy then fetchSymbol s else fetchCall s)
  else .stop .tagsNotDistinct

/-- Put a call at the head of the agenda, no scan being under way. -/
def placeCall (s : State) (c : Call) : State :=
  { s with x := { s.x with busy := false }, agenda := c :: s.agenda }

/-- Put a decoder input under the cursor of a scan in `FRAME`, just after its start tag
(30_encoding.md R80; log 15): the buffer is the start tag and the byte, or the start tag alone. -/
def placeSymbol (s : State) (input : Option Byte) : State :=
  { s with
    x := { s.x with
      busy := true, st := .frame, cur := 1, acc := [], hv := false, pv := false, cnt := 0, pay := [] }
    ib := s.cfg.start :: input.toList }

/-- Store a table word where `fetch` finds it, in the format `decodeTableWord` reads it in (log 15). -/
def placeWord (s : State) (nbits w : Nat) : State :=
  match tableFormat nbits with
  | some (.wire _) =>
    match word9 (numberBytes (nbits / 8) w) with
    | .ok (b, eob) => placeSymbol s (wireInput b eob)
    | .error _ => s
  | some (.call p) => placeCall s { port := p, bytes := numberBytes (nbits / 8) w }
  | none => s

end Sys2Proof.Machine
end

