-- ==== Sys2Proof/Machine/Step.lean ====
section
/-! DEFINITION. One step of CORE. -/

namespace Sys2Proof.Machine

/-- One step: run what `fetch` finds; with nothing invoked the state stays as it is (60_exceptions.md
R194, 10_state.md R34). -/
def step (s : State) : Host.Outcome State Fault Refusal :=
  match fetch s with
  | .idle => .next s
  | .run i t => exec i t
  | .stop r => .refused r

/-- The state in which the next step runs a table word (log 15). -/
def State.withFetchWord (s : State) (nbits w : Nat) : State := placeWord s nbits w

end Sys2Proof.Machine
end

