-- ==== Sys2Proof/Safety.lean ====
section
/-! DEFINITION. The terms that statements about CORE use: which part of the state an operation leaves
alone, the wire text of a payload (30_encoding.md R70 to R76), a scan written over the bytes alone,
and the invariants of a run. -/

namespace Sys2Proof.Safety

open Sys2Proof.Machine

/-- Every byte of IB reads as before. -/
def IbUnchanged (s t : State) : Prop := ∀ a, t.ibRead a = s.ibRead a

/-- Every byte of OB reads as before. -/
def ObUnchanged (s t : State) : Prop := ∀ a, t.obRead a = s.obRead a

/-- The Framer's registers and every byte of OB are as before. -/
def FramerSideUnchanged (s t : State) : Prop := t.f = s.f ∧ ObUnchanged s t

/-- The Extractor's registers and flags, the reports and every byte of IB are as before. -/
def ExtractorSideUnchanged (s t : State) : Prop := t.x = s.x ∧ t.diag = s.diag ∧ IbUnchanged s t

/-- The configuration constants and the calls still to come are as before. -/
def SetUpUnchanged (s t : State) : Prop := t.cfg = s.cfg ∧ t.agenda = s.agenda

/-- A CRC operation of one unit changes at most that unit's remainder register (10_state.md R33,
42_crc_engine.md R164). -/
def OnlyCrcRegisterOf (u : CrcUnit) (s t : State) : Prop :=
  (∀ w, w ≠ u → t.crcReg w = s.crcReg w) ∧ t.f.pos = s.f.pos ∧
    t.x = { s.x with crc := t.x.crc } ∧ t.diag = s.diag ∧ IbUnchanged s t ∧ ObUnchanged s t ∧
    SetUpUnchanged s t

/-- The scan goes on: neither its end, nor the result of the last poll, nor a report. -/
def ScanGoesOn (s t : State) : Prop :=
  t.x.busy = s.x.busy ∧ t.x.res = s.x.res ∧ t.diag = s.diag

/-- The registers of the register form are as before (10_state.md R28). -/
def RegisterFormUnchanged (s t : State) : Prop :=
  t.x.crc = s.x.crc ∧ t.x.hold = s.x.hold ∧ t.x.hv = s.x.hv ∧ t.x.cnt = s.x.cnt ∧
    t.x.pv = s.x.pv ∧ t.x.pay = s.x.pay

/-- One operation and then another, if the first answers a next state. -/
def andThen (o : Host.Outcome State Fault Refusal) (k : State → Host.Outcome State Fault Refusal) :
    Host.Outcome State Fault Refusal :=
  match o with
  | .next t => k t
  | .fault r => .fault r
  | .refused r => .refused r

/-- The operations of the Extractor (00_scope.md R8, 30_encoding.md R80). -/
def IsExtractorOperation (i : Instr) : Prop := i = .extPoll ∨ ∃ sym : Symbol, i = sym.instr

/-- The sink has room for so many more bytes (20_memory.md R57). -/
def SinkHasRoom (s : State) (n : Nat) : Prop := ∀ cap, s.cfg.obCap = some cap → s.ob.length + n ≤ cap

/-- Both capacities are respected (20_memory.md R50, R57). -/
def WithinCapacity (s : State) : Prop :=
  (∀ cap, s.cfg.ibCap = some cap → s.ib.length ≤ cap) ∧
    (∀ cap, s.cfg.obCap = some cap → s.ob.length ≤ cap)

end Sys2Proof.Safety

namespace Sys2Proof.Wire

open Sys2Proof.Machine

/-- One payload byte on the wire: escaped exactly when it is a tag (30_encoding.md R72, R73). -/
def item (c : Config) (b : Byte) : List Byte := if c.isTag b then [c.esc, b] else [b]

/-- The block field of a frame (30_encoding.md R71). -/
def block (c : Config) (p : List Byte) : List Byte := p.flatMap (item c)

/-- One frame: start tag, block, bare checksum, stop tag (30_encoding.md R70, R71, R74). -/
def frame (c : Config) (p : List Byte) : List Byte :=
  c.start :: (block c p ++ (crcPayload p c.poly).toList ++ [c.stop])

/-- The blocks of a payload: runs of 8 bytes, the last of 1 to 8 (30_encoding.md R76, 40_framer.md
R109). -/
def blocks (p : List Byte) : List (List Byte) :=
  (List.range ((p.length + 7) / 8)).map fun j => (p.drop (8 * j)).take 8

/-- What stands on the wire of a block that is still open: nothing, or the start tag and the bytes so
far (70_reset_and_hazards.md R216). -/
def openBlock (c : Config) (p : List Byte) : List Byte :=
  if p.isEmpty then [] else c.start :: block c p

/-- Wire items as a foreign sender may write them: each byte with or without an escape tag
(30_encoding.md R81). -/
def anyItems (c : Config) (items : List (Bool × Byte)) : List Byte :=
  items.flatMap fun (escaped, b) => if escaped then [c.esc, b] else [b]

/-- A bare byte among the items is no tag (30_encoding.md R80, R81). -/
def ItemsOk (c : Config) (items : List (Bool × Byte)) : Prop :=
  ∀ e ∈ items, e.1 = false → c.isTag e.2 = false

/-- A frame begun: its start tag and items (41_extractor.md R124 to R130). -/
def begun (c : Config) (items : List (Bool × Byte)) : List Byte := c.start :: anyItems c items

/-- Frames begun one after the other, each superseded by the start tag of the next
(41_extractor.md R132). -/
def superseded (c : Config) (frames : List (List (Bool × Byte))) : List Byte :=
  frames.flatMap (begun c)

/-- What one poll answers: the buffer it leaves, its result and its events. -/
structure Answer where
  rest : List Byte
  res : Result
  events : List Event
  deriving DecidableEq, Repr

/-- A scan written over the bytes alone, without cursor or renumbering: the state, the bytes kept since
the anchor (in `HUNT`, the garbage so far), the literals, the events so far, and the bytes to come
(41_extractor.md R120). -/
def scan (c : Config) : ScanState → List Byte → List Byte → List Event → List Byte → Answer
  | .hunt, kept, _, evs, [] =>
    { rest := []
      res := Result.incomplete
      events := (if kept.isEmpty then evs else evs ++ [.resyncDrop]) ++ [.incomplete] }
  | .hunt, kept, acc, evs, b :: bs =>
    if b = c.start then
      scan c .frame [b] [] (if kept.isEmpty then evs else evs ++ [.resyncDrop]) bs
    else scan c .hunt (kept ++ [b]) acc evs bs
  | .frame, kept, _, evs, [] =>
    { rest := kept, res := Result.incomplete, events := evs ++ [.incomplete] }
  | .frame, kept, acc, evs, b :: bs =>
    if b = c.esc then scan c .escd (kept ++ [b]) acc evs bs
    else if b = c.stop then
      { rest := bs
        res := frameResult c.poly acc
        events := evs ++ frameEvent (frameResult c.poly acc) }
    else if b = c.start then scan c .frame [b] [] (evs ++ [.resyncRestart]) bs
    else scan c .frame (kept ++ [b]) (acc ++ [b]) evs bs
  | .escd, kept, _, evs, [] =>
    { rest := kept, res := Result.incomplete, events := evs ++ [.incomplete] }
  | .escd, kept, acc, evs, b :: bs => scan c .frame (kept ++ [b]) (acc ++ [b]) evs bs

/-- The answer of a poll on a buffer: a function of the bytes and the configuration alone
(41_extractor.md R140). -/
def answer (c : Config) (bytes : List Byte) : Answer := scan c .hunt [] [] [] bytes

end Sys2Proof.Wire

namespace Sys2Proof.Safety

open Sys2Proof.Machine

/-- The bytes `FRM.BYTE` emits in a state: start tag, escape tag, the byte, checksum and stop tag, each
under its condition (40_framer.md R103 to R107). -/
def frameByteBytes (s : State) (b : Byte) (last : Bool) : List Byte :=
  let fed := crcByte (if s.f.pos = 0 then b else s.f.crc) b s.cfg.poly
  (if s.f.pos = 0 then [s.cfg.start] else []) ++ (if s.cfg.isTag b then [s.cfg.esc] else []) ++ [b] ++
    (if s.f.pos = 7 ∨ last = true then [crcDrain fed s.cfg.poly, s.cfg.stop] else [])

/-- The results of so many polls one after the other, and the state they leave (30_encoding.md R91,
`decode*`). -/
def pollResults : Nat → State → List Result × State
  | 0, s => ([], s)
  | n + 1, s =>
    match exec .extPoll s with
    | .next t => ((t.x.res :: (pollResults n t).1), (pollResults n t).2)
    | .fault _ => ([], s)
    | .refused _ => ([], s)

/-- The two forms of the accumulation agree (10_state.md R28, 41_extractor.md R142). -/
structure FormsAgree (s : State) : Prop where
  empty : s.x.hv = false → s.x.acc = [] ∧ s.x.pay = []
  held : s.x.hv = true → s.x.acc = s.x.pay ++ [s.x.hold]
  committed : s.x.pv = !s.x.pay.isEmpty
  count : s.x.cnt.val = s.x.pay.length % 8
  remainder : ∀ b rest, s.x.pay = b :: rest → s.x.crc = crcRun s.cfg.poly 0 b s.x.pay

/-- The scan under way stands where 41_extractor.md R121 to R132 put it: the cursor is in IB, no start
tag was passed over in `HUNT`, the start tag the scan is anchored on is at offset 0 and behind the
cursor otherwise, and the two forms of the accumulation agree. -/
structure ScanOk (s : State) : Prop where
  cursor : s.x.cur ≤ s.ib.length
  hunting : s.x.st = .hunt → s.cfg.start ∉ s.ib.take s.x.cur
  anchored : s.x.st ≠ .hunt → 1 ≤ s.x.cur ∧ s.ib.head? = some s.cfg.start
  forms : FormsAgree s

/-- While a scan is under way it is in order. -/
def ScanInv (s : State) : Prop := s.x.busy = true → ScanOk s

/-- OB holds whole frames of 1 to 8 payload bytes each and then the open block, if any: as many payload
bytes as `F.pos` says, with `F.crc` their running remainder (10_state.md R21, R22; 30_encoding.md
R70). -/
def FramerInv (s : State) : Prop :=
  ∃ (done : List (List Byte)) (cur : List Byte),
    (∀ p ∈ done, 1 ≤ p.length ∧ p.length ≤ 8) ∧ cur.length = s.f.pos.val ∧
    s.ob = done.flatMap (Wire.frame s.cfg) ++ Wire.openBlock s.cfg cur ∧
    (∀ b rest, cur = b :: rest → s.f.crc = crcRun s.cfg.poly 0 b cur)

/-- The result is one of the three codes of 30_encoding.md R86, and without a frame it has no payload
(10_state.md R29). -/
def ResultOk (r : Result) : Prop := r.complete = false → r.valid = false ∧ r.payload = []

end Sys2Proof.Safety
end

