-- ==== Sys2Proof/Certificates/Slice0/Obligations.lean ====
section
/-! DEFINITION. The statements about the model, from the numbered rules of spec/. Where a clause rests on
a decision or an inference of the spec's own, or on a choice of the model, the docstring says so. -/

open Sys2Proof Sys2Proof.Machine Sys2Proof.Safety

/-! ### The CRC Engine -/

/-- 42_crc_engine.md R160, in integers: exclusive or first, on the unshifted remainder, then doubling, the
bit, and eight bits kept. -/
def Obligations.CrcStepXorsBeforeShift : Prop :=
  ∀ (r : Byte) (bit : Bool) (poly : Byte),
    (crcStep r bit poly).toNat =
      ((if 128 ≤ r.toNat then r.toNat ^^^ poly.toNat else r.toNat) * 2 + bit.toNat) % 256

/-- 42_crc_engine.md R165: the loop of `CrcPayload` (seed at every eighth byte, feed every byte, drain
with eight zero bits), undefined without a byte, and decided by the last block alone. That the seed byte is
also fed is decision D2 of the spec, the last block its D7 (logs 16 and 18). -/
def Obligations.PayloadChecksumFollowsTheLoop : Prop :=
  ∀ (p : List Byte) (poly : Byte),
    (p = [] → crcPayload p poly = none) ∧
      (p ≠ [] →
        (∀ r₀ : Byte,
          crcPayload p poly =
            some (crcByte
              (p.zipIdx.foldl (fun r bi => crcByte (if bi.2 % 8 = 0 then bi.1 else r) bi.1 poly) r₀)
              0x00#8 poly)) ∧
          crcPayload p poly = crcPayload (p.drop (8 * ((p.length - 1) / 8))) poly)

/-- 42_crc_engine.md R160 to R163 on the caller's register. That the operand `r` and the result are that
register is the model's reading (log 11); frame by R164 and 10_state.md R33. -/
def Obligations.CrcOperationsUpdateTheCallersRegister : Prop :=
  ∀ (s : State) (u : CrcUnit) (bit : Bool) (v : Byte),
    (∃ t, exec (.crcStep u bit) s = .next t ∧
      t.crcReg u = crcStep (s.crcReg u) bit s.cfg.poly ∧ OnlyCrcRegisterOf u s t) ∧
    (∃ t, exec (.crcByte u v) s = .next t ∧
      t.crcReg u =
        [7, 6, 5, 4, 3, 2, 1, 0].foldl (fun r k => crcStep r (v.getLsbD k) s.cfg.poly) (s.crcReg u) ∧
      OnlyCrcRegisterOf u s t) ∧
    (∃ t, exec (.crcDrain u) s = .next t ∧
      t.crcReg u = (List.replicate 8 false).foldl (fun r b => crcStep r b s.cfg.poly) (s.crcReg u) ∧
      OnlyCrcRegisterOf u s t) ∧
    (∃ t, exec (.crcSeed u v) s = .next t ∧ t.crcReg u = v ∧ OnlyCrcRegisterOf u s t)

/-- 42_crc_engine.md section 3 (R170, derived by the spec): bit 0 of a step is the bit fed, so bit 0 of
every checksum is 0. -/
def Obligations.ChecksumBitZeroIsClear : Prop :=
  (∀ (r : Byte) (bit : Bool) (poly : Byte), (crcStep r bit poly).getLsbD 0 = bit) ∧
    ∀ (p : List Byte) (poly c : Byte), crcPayload p poly = some c → c.getLsbD 0 = false

/-- 42_crc_engine.md section 3 (R171, derived by the spec): bit 7 of the polynomial has no effect, on a
step and on a checksum. -/
def Obligations.PolynomialTopBitIsIdle : Prop :=
  (∀ (r : Byte) (bit : Bool) (poly : Byte), crcStep r bit (poly ^^^ 0x80#8) = crcStep r bit poly) ∧
    ∀ (p : List Byte) (poly : Byte), crcPayload p (poly ^^^ 0x80#8) = crcPayload p poly

/-- 42_crc_engine.md section 3 (R172, derived by the spec): for payloads of one length the checksum of
the byte-wise exclusive or is the exclusive or of the checksums. -/
def Obligations.ChecksumIsLinear : Prop :=
  ∀ (p q : List Byte) (poly cp cq : Byte), p.length = q.length → crcPayload p poly = some cp →
    crcPayload q poly = some cq →
    crcPayload (List.zipWith (· ^^^ ·) p q) poly = some (cp ^^^ cq)

/-- 42_crc_engine.md section 3 (R174, derived by the spec by evaluation): with the default polynomial a
single flipped bit in a block of 1 to 8 bytes changes its checksum. -/
def Obligations.SingleBitFlipChangesChecksum : Prop :=
  ∀ (p : List Byte) (i k : Nat) (b : Byte), p.length ≤ 8 → p[i]? = some b → k < 8 →
    crcPayload (p.set i (b ^^^ (1#8 <<< k))) 0x87#8 ≠ crcPayload p 0x87#8

/-- 42_crc_engine.md section 3 (R175, derived by the spec): with `POLY` 0x00 or 0x80 every checksum is
0x00. -/
def Obligations.DegeneratePolynomialsClearChecksums : Prop :=
  ∀ (p : List Byte) (poly : Byte), p ≠ [] → poly = 0x00#8 ∨ poly = 0x80#8 →
    crcPayload p poly = some 0x00#8

/-! ### The Framer -/

/-- 40_framer.md R105 and R108, with the emissions of R103, R104 and R107: what `FRM.BYTE` adds to OB, the
position, and the frame, wherever the sink has room. The remainder is in FrmByteFeedsTheRemainder. -/
def Obligations.FrmByteEmitsAndAdvances : Prop :=
  ∀ (s : State) (data : Byte) (last : Bool),
    SinkHasRoom s (frameByteBytes s data last).length →
    ∃ t, exec (.frmByte data last) s = .next t ∧
      t.ob = s.ob ++ (if s.f.pos = 0 then [s.cfg.start] else []) ++
        (if data = s.cfg.start ∨ data = s.cfg.stop ∨ data = s.cfg.esc then [s.cfg.esc] else []) ++
        [data] ++ (if s.f.pos = 7 ∨ last = true then [t.f.crc, s.cfg.stop] else []) ∧
      (∀ a, a < s.ob.length → t.obRead a = s.obRead a) ∧
      t.f.pos.val = (if s.f.pos = 7 ∨ last = true then 0 else s.f.pos.val + 1) ∧
      ExtractorSideUnchanged s t ∧ SetUpUnchanged s t

/-- 40_framer.md section 2 (R103, R106 and R107): the remainder after `FRM.BYTE`. That the first byte of a
block is both the seed and fed is decision D2 of the spec (log 16). -/
def Obligations.FrmByteFeedsTheRemainder : Prop :=
  ∀ (s t : State) (data : Byte) (last : Bool), exec (.frmByte data last) s = .next t →
    t.f.crc =
      (let seeded := if s.f.pos = 0 then data else s.f.crc
       let fed := crcByte seeded data s.cfg.poly
       if s.f.pos = 7 ∨ last = true then crcByte fed 0x00#8 s.cfg.poly else fed)

/-- The model's stop at a full bounded sink (93_implementation_defined.md U8, log 8). -/
def Obligations.FrmByteStopsAtFullSink : Prop :=
  ∀ (s : State) (data : Byte) (last : Bool) (cap : Nat), s.cfg.obCap = some cap →
    cap < s.ob.length + (frameByteBytes s data last).length →
    exec (.frmByte data last) s = .refused .outboundSinkFull

/-- 40_framer.md section 1 and 30_encoding.md section 5: `FRM.ENCODE` is one `FRM.BYTE` a byte, `last` on
the final one, from any `F.pos` (log 7) and with its stops. -/
def Obligations.FrmEncodeIsItsFrmBytes : Prop :=
  ∀ (s : State) (b : Byte) (rest : List Byte),
    exec (.frmEncode [b]) s = exec (.frmByte b true) s ∧
      (rest ≠ [] →
        exec (.frmEncode (b :: rest)) s =
          andThen (exec (.frmByte b false) s) (exec (.frmEncode rest)))

/-- 40_framer.md section 3 (R109 and R110, derived by the spec): with no block open `FRM.ENCODE` appends
one whole frame for each block of the payload, leaves no block open and the last checksum in `F.crc`. -/
def Obligations.FrmEncodeAppendsWholeFrames : Prop :=
  ∀ (s : State) (p : List Byte), p ≠ [] → s.f.pos = 0 →
    SinkHasRoom s ((Wire.blocks p).flatMap (Wire.frame s.cfg)).length →
    ∃ t, exec (.frmEncode p) s = .next t ∧
      t.ob = s.ob ++ (Wire.blocks p).flatMap (Wire.frame s.cfg) ∧
      (∀ a, a < s.ob.length → t.obRead a = s.obRead a) ∧
      t.f.pos = 0 ∧
      (Wire.blocks p).getLast?.bind (fun b => crcPayload b s.cfg.poly) = some t.f.crc ∧
      ExtractorSideUnchanged s t ∧ SetUpUnchanged s t

/-- 30_encoding.md section 1 (R75, derived by the spec): the length of the wire text of a payload, and of
one frame. -/
def Obligations.WireLengths : Prop :=
  (∀ (c : Config) (p : List Byte), p ≠ [] →
    ((Wire.blocks p).flatMap (Wire.frame c)).length =
      p.length + (p.filter c.isTag).length + 3 * ((p.length + 7) / 8)) ∧
    ∀ (c : Config) (p : List Byte), 1 ≤ p.length → p.length ≤ 8 →
      4 ≤ (Wire.frame c p).length ∧ (Wire.frame c p).length ≤ 19

/-- 40_framer.md section 1 (R101, decision D3 of the spec): an empty payload is refused, and no word of
the interface stands for it. -/
def Obligations.EmptyPayloadIsRefused : Prop :=
  (∀ s : State, exec (.frmEncode []) s = .refused .emptyPayload) ∧
    ∀ c : Config, decode c (.call .frmEncode) [] = .rejected .emptyPayload

/-! ### The inbound buffer -/

/-- 20_memory.md R54: `IB.APPEND(b)` adds one byte at the back and changes nothing else; it is refused at
a full bounded buffer; every other operation leaves IB or a remainder of it. -/
def Obligations.IbAppendAddsOneByte : Prop :=
  (∀ (s : State) (b : Byte), (∀ cap, s.cfg.ibCap = some cap → s.ibLen < cap) →
    ∃ t, exec (.ibAppend b) s = .next t ∧ t.ib = s.ib ++ [b] ∧
      (∀ a, a < s.ibLen → t.ibRead a = s.ibRead a) ∧ t.ibRead s.ibLen = some b ∧
      t.x = s.x ∧ t.diag = s.diag ∧ FramerSideUnchanged s t ∧ SetUpUnchanged s t) ∧
  (∀ (s : State) (b : Byte), s.cfg.ibCap = some s.ibLen →
    exec (.ibAppend b) s = .refused .inboundBufferFull) ∧
  ∀ (i : Instr) (s t : State), exec i s = .next t →
    (∃ b, i = .ibAppend b ∧ t.ib = s.ib ++ [b]) ∨ ∃ n, t.ib = s.ib.drop n

/-- 20_memory.md R55: only the Extractor removes bytes, and only from the front; no operation rewrites or
reorders them. -/
def Obligations.OnlyTheExtractorRemovesFromIb : Prop :=
  ∀ (i : Instr) (s t : State), exec i s = .next t →
    (IsExtractorOperation i → ∃ n, n ≤ s.ibLen ∧ t.ib = s.ib.drop n) ∧
    (¬ IsExtractorOperation i → t.ib = s.ib ∨ ∃ b, i = .ibAppend b ∧ t.ib = s.ib ++ [b])

/-! ### The wire symbols -/

/-- 30_encoding.md R80: the whole table, by scan state and byte, `none` being the end. -/
def Obligations.WireTableDecodes : Prop :=
  ∀ (c : Config), c.tagsDistinct = true →
    decodeSymbol c .hunt (some c.start) = .hStart ∧
    (∀ b, b ≠ c.start → decodeSymbol c .hunt (some b) = .hSkip b) ∧
    decodeSymbol c .hunt none = .hEnd ∧
    decodeSymbol c .frame (some c.esc) = .fEsc ∧
    decodeSymbol c .frame (some c.stop) = .fStop ∧
    decodeSymbol c .frame (some c.start) = .fStart ∧
    (∀ b, b ≠ c.start → b ≠ c.stop → b ≠ c.esc → decodeSymbol c .frame (some b) = .fData b) ∧
    decodeSymbol c .frame none = .fEnd ∧
    (∀ b, decodeSymbol c .escd (some b) = .eLit b) ∧
    decodeSymbol c .escd none = .eEnd

/-- 41_extractor.md R128, and the condition and action of R123: `H.SKIP` and `F.ESC` move the cursor over
one byte, and `F.ESC` goes to `ESCD`; nothing else changes. -/
def Obligations.SkipAndEscapeAdvance : Prop :=
  ∀ s : State,
    (∀ d, s.x.st = .hunt → s.ibRead s.x.cur = some d → d ≠ s.cfg.start →
      ∃ t, exec (.hSkip d) s = .next t ∧ t.x = { s.x with cur := s.x.cur + 1 } ∧
        t.diag = s.diag ∧ IbUnchanged s t ∧ FramerSideUnchanged s t ∧ SetUpUnchanged s t) ∧
    (s.x.st = .frame → s.ibRead s.x.cur = some s.cfg.esc →
      ∃ t, exec .fEsc s = .next t ∧ t.x = { s.x with cur := s.x.cur + 1, st := .escd } ∧
        t.diag = s.diag ∧ IbUnchanged s t ∧ FramerSideUnchanged s t ∧ SetUpUnchanged s t)

/-- 41_extractor.md R127 and R130: a non-tag byte in `FRAME` and any byte in `ESCD` joins `X.acc`
unchanged. The registers of the register form are those of LiteralsMoveTheHeldByte. -/
def Obligations.LiteralsJoinTheAccumulation : Prop :=
  ∀ (s : State) (d : Byte), s.ibRead s.x.cur = some d →
    (s.x.st = .frame → s.cfg.isTag d = false →
      ∃ t, exec (.fData d) s = .next t ∧ t.x.acc = s.x.acc ++ [d] ∧ t.x.cur = s.x.cur + 1 ∧
        t.x.st = .frame ∧ t.x.events = s.x.events ∧ ScanGoesOn s t ∧ IbUnchanged s t ∧
        FramerSideUnchanged s t ∧ SetUpUnchanged s t) ∧
    (s.x.st = .escd →
      ∃ t, exec (.eLit d) s = .next t ∧ t.x.acc = s.x.acc ++ [d] ∧ t.x.cur = s.x.cur + 1 ∧
        t.x.st = .frame ∧ t.x.events = s.x.events ∧ ScanGoesOn s t ∧ IbUnchanged s t ∧
        FramerSideUnchanged s t ∧ SetUpUnchanged s t)

/-- 41_extractor.md section 7 (R142, derived by the spec): in the register form a literal commits the held
byte, seeding at every eighth, and is held itself; an anchoring start tag clears the form. -/
def Obligations.LiteralsMoveTheHeldByte : Prop :=
  (∀ (s t : State) (d : Byte), exec (.fData d) s = .next t ∨ exec (.eLit d) s = .next t →
    t.x.hold = d ∧ t.x.hv = true ∧
    (s.x.hv = false →
      t.x.crc = s.x.crc ∧ t.x.pay = s.x.pay ∧ t.x.pv = s.x.pv ∧ t.x.cnt = s.x.cnt) ∧
    (s.x.hv = true →
      t.x.crc = crcByte (if s.x.cnt = 0 then s.x.hold else s.x.crc) s.x.hold s.cfg.poly ∧
      t.x.pay = s.x.pay ++ [s.x.hold] ∧ t.x.pv = true ∧
      t.x.cnt.val = (s.x.cnt.val + 1) % 8)) ∧
  ∀ s t : State, exec .hStart s = .next t ∨ exec .fStart s = .next t →
    t.x.hv = false ∧ t.x.pv = false ∧ t.x.cnt = 0 ∧ t.x.pay = [] ∧ t.x.crc = s.x.crc ∧
      t.x.hold = s.x.hold

/-- 41_extractor.md R124 and R132: a start tag drops the bytes before it, is then at offset 0, and the scan
goes on behind it with an empty accumulation. -/
def Obligations.StartTagsAnchorTheScan : Prop :=
  ∀ s : State, s.ibRead s.x.cur = some s.cfg.start →
    (s.x.st = .hunt →
      ∃ t, exec .hStart s = .next t ∧ (∀ a, t.ibRead a = s.ibRead (s.x.cur + a)) ∧ t.x.cur = 1 ∧
        t.x.acc = [] ∧ t.x.st = .frame ∧
        t.x.events = (if 0 < s.x.cur then s.x.events ++ [.resyncDrop] else s.x.events) ∧
        ScanGoesOn s t ∧ FramerSideUnchanged s t ∧ SetUpUnchanged s t) ∧
    (s.x.st = .frame → s.cfg.tagsDistinct = true →
      ∃ t, exec .fStart s = .next t ∧ (∀ a, t.ibRead a = s.ibRead (s.x.cur + a)) ∧ t.x.cur = 1 ∧
        t.x.acc = [] ∧ t.x.st = .frame ∧ t.x.events = s.x.events ++ [.resyncRestart] ∧
        ScanGoesOn s t ∧ FramerSideUnchanged s t ∧ SetUpUnchanged s t)

/-- 41_extractor.md R126 and R129: at the end of the bytes inside a frame the poll returns incomplete and
removes nothing. -/
def Obligations.OpenFrameEndsIncomplete : Prop :=
  ∀ s : State, s.x.cur = s.ibLen →
    (s.x.st = .frame →
      ∃ t, exec .fEnd s = .next t ∧
        t.x.res = { complete := false, valid := false, payload := [] } ∧ t.x.busy = false ∧
        t.x.events = s.x.events ++ [.incomplete] ∧ t.diag = s.diag ∧ IbUnchanged s t ∧
        FramerSideUnchanged s t ∧ SetUpUnchanged s t) ∧
    (s.x.st = .escd →
      ∃ t, exec .eEnd s = .next t ∧
        t.x.res = { complete := false, valid := false, payload := [] } ∧ t.x.busy = false ∧
        t.x.events = s.x.events ++ [.incomplete] ∧ t.diag = s.diag ∧ IbUnchanged s t ∧
        FramerSideUnchanged s t ∧ SetUpUnchanged s t)

/-- 41_extractor.md section 2 (R125, decision D4 of the spec): at the end of the bytes in `HUNT` the
garbage is removed and the poll returns incomplete. -/
def Obligations.HuntEndDropsTheGarbage : Prop :=
  ∀ s : State, s.x.st = .hunt → s.x.cur = s.ibLen →
    ∃ t, exec .hEnd s = .next t ∧ (∀ a, t.ibRead a = none) ∧
      t.x.res = { complete := false, valid := false, payload := [] } ∧ t.x.busy = false ∧
      t.x.events =
        (if 0 < s.ibLen then s.x.events ++ [.resyncDrop, .incomplete]
          else s.x.events ++ [.incomplete]) ∧
      t.diag = s.diag ∧ FramerSideUnchanged s t ∧ SetUpUnchanged s t

/-- 41_extractor.md R131 and R134: a stop tag removes the frame through itself and returns its payload,
valid exactly where the checksum recomputed from it equals the last literal. -/
def Obligations.StopTagReturnsThePayload : Prop :=
  ∀ (s : State) (pl : List Byte) (rx c : Byte), s.x.st = .frame →
    s.ibRead s.x.cur = some s.cfg.stop → s.cfg.tagsDistinct = true → s.x.acc = pl ++ [rx] →
    crcPayload pl s.cfg.poly = some c →
    ∃ t, exec .fStop s = .next t ∧ (∀ a, t.ibRead a = s.ibRead (s.x.cur + 1 + a)) ∧
      t.x.res = { complete := true, valid := decide (c = rx), payload := pl } ∧ t.x.busy = false ∧
      t.x.events = (if c = rx then s.x.events else s.x.events ++ [.crcMismatch]) ∧
      t.diag = (if c ≠ rx ∧ s.cfg.diagSink = true then s.diag ++ [.report] else s.diag) ∧
      FramerSideUnchanged s t ∧ SetUpUnchanged s t

/-- 41_extractor.md section 4 (R135, decision D6 of the spec): a frame with at most one literal is returned
without payload, not valid, consumed through its stop tag and reported. -/
def Obligations.StopTagOfShortFrame : Prop :=
  ∀ s : State, s.x.st = .frame → s.ibRead s.x.cur = some s.cfg.stop → s.cfg.tagsDistinct = true →
    s.x.acc.length ≤ 1 →
    ∃ t, exec .fStop s = .next t ∧ (∀ a, t.ibRead a = s.ibRead (s.x.cur + 1 + a)) ∧
      t.x.res = { complete := true, valid := false, payload := [] } ∧ t.x.busy = false ∧
      t.x.events = s.x.events ++ [.malformedShort] ∧
      t.diag = (if s.cfg.diagSink = true then s.diag ++ [.report] else s.diag) ∧
      FramerSideUnchanged s t ∧ SetUpUnchanged s t

/-- The model's choice (log 21): the four symbols that end a poll leave the scratch registers as they
are. The spec leaves their values open after a poll (10_state.md section 4) and no rule reads them. -/
def Obligations.EndOfPollKeepsTheScratch : Prop :=
  ∀ (s t : State) (i : Instr), i = .hEnd ∨ i = .fStop ∨ i = .fEnd ∨ i = .eEnd → exec i s = .next t →
    t.x.st = s.x.st ∧ t.x.cur = s.x.cur ∧ t.x.acc = s.x.acc ∧ RegisterFormUnchanged s t

/-- 30_encoding.md section 2 and 41_extractor.md section 1: wherever the cursor is in IB or at its end,
exactly one symbol has its condition met and runs. That every other one is refused is the model's choice
(log 5). -/
def Obligations.ExactlyOneSymbolRuns : Prop :=
  ∀ s : State, s.x.cur ≤ s.ibLen →
    ∃ sym : Symbol, (∃ t, exec sym.instr s = .next t) ∧
      ∀ other : Symbol, other ≠ sym → exec other.instr s = .refused .symbolDoesNotApply

/-! ### The poll -/

/-- 41_extractor.md sections 1 and 6 (R120 to R122 and R139): the atomic `EXT.POLL` of the model is the run
of its symbols, one a step, from the scan initialisation to the end of the scan, in at most
`IbLen() + 1` steps. That a poll is one step of the agenda is the model's choice (log 4). -/
def Obligations.PollIsTheRunOfItsSymbols : Prop :=
  ∀ s : State, s.cfg.tagsDistinct = true →
    (beginScan s).x.st = .hunt ∧ (beginScan s).x.cur = 0 ∧ (beginScan s).x.acc = [] ∧
    (beginScan s).ib = s.ib ∧
    ∃ n t, 1 ≤ n ∧ n ≤ s.ibLen + 1 ∧ exec .extPoll s = .next t ∧ t.x.busy = false ∧
      Host.Core.run Sys2Proof.core n (beginScan s) = .next t

/-- 41_extractor.md sections 1, 5 and 6 (R120, R137, R140): a poll answers what the scan written over the
bytes alone answers, and touches nothing else. What is left of a buffer without a start tag is decision D4 of the spec
(log 17), the result of a malformed frame its D5 to D7 (log 18). -/
def Obligations.PollMeetsTheByteScan : Prop :=
  ∀ s : State, ∃ t, exec .extPoll s = .next t ∧
    t.ib = (Wire.answer s.cfg s.ib).rest ∧ t.x.res = (Wire.answer s.cfg s.ib).res ∧
    t.x.events = (Wire.answer s.cfg s.ib).events ∧ t.x.busy = false ∧
    FramerSideUnchanged s t ∧ SetUpUnchanged s t

/-- 41_extractor.md R138: with a sink attached a poll makes one report exactly where it returns a frame that
is not valid. -/
def Obligations.PollReportsInvalidFrames : Prop :=
  ∀ s t : State, s.cfg.diagSink = true → exec .extPoll s = .next t →
    t.diag =
      s.diag ++ (if t.x.res.complete = true ∧ t.x.res.valid = false then [.report] else [])

/-- 60_exceptions.md section 4 ("The sink is optional"): with no sink attached no report is kept, and the poll
is otherwise the same. That attachment is a constant of the configuration is the model's (log 12). -/
def Obligations.PollWithoutSinkReportsNothing : Prop :=
  ∀ s t : State, s.cfg.diagSink = false → exec .extPoll s = .next t →
    t.diag = s.diag ∧
      ∃ u, exec .extPoll { s with cfg := { s.cfg with diagSink := true } } = .next u ∧
        u.x = t.x ∧ u.ib = t.ib

/-- 60_exceptions.md section 2 (R186, derived by the spec): the order of the events of one poll. That a buffer
without a start tag is dropped is decision D4 of the spec (log 17), `MALFORMED_SHORT` its D6 (log 18). -/
def Obligations.PollEventsInScanOrder : Prop :=
  ∀ s t : State, exec .extPoll s = .next t →
    ∃ n, t.x.events =
      (if s.ib.head? = none ∨ s.ib.head? = some s.cfg.start then [] else [.resyncDrop]) ++
        List.replicate n .resyncRestart ++
        (if t.x.res.complete = false then [.incomplete]
          else if t.x.res.payload = [] then [.malformedShort]
          else if t.x.res.valid = false then [.crcMismatch] else [])

/-- 20_memory.md section 1 and 41_extractor.md section 5 (R56, R137): all that a poll removes. It is garbage
without a start tag, then frames begun and superseded by a start tag that is not escaped; complete, then one
frame up to and including its first stop tag that is not escaped. Incomplete, the frame begun last stays, a
dangling escape tag included, and a buffer without a start tag goes whole (decision D4 of the spec, log 17). -/
def Obligations.PollRemovesOnlyConfirmedBytes : Prop :=
  ∀ s t : State, exec .extPoll s = .next t →
    ∃ (garbage : List Byte) (frames : List (List (Bool × Byte))), s.cfg.start ∉ garbage ∧
      (∀ items ∈ frames, Wire.ItemsOk s.cfg items) ∧
      (t.x.res.complete = false →
        s.ib = garbage ++ Wire.superseded s.cfg frames ++ t.ib ∧
          ((t.ib = [] ∧ frames = []) ∨
            ∃ (items : List (Bool × Byte)) (dangling : List Byte), Wire.ItemsOk s.cfg items ∧
              (dangling = [] ∨ dangling = [s.cfg.esc]) ∧
              t.ib = Wire.begun s.cfg items ++ dangling)) ∧
      (t.x.res.complete = true →
        ∃ items : List (Bool × Byte), Wire.ItemsOk s.cfg items ∧
          s.ib = garbage ++ Wire.superseded s.cfg frames ++ Wire.begun s.cfg items ++
            s.cfg.stop :: t.ib)

/-- 41_extractor.md section 6 (R140, derived by the spec): a poll is a function of IB and the
configuration; nothing else of the state can be learned from it. -/
def Obligations.PollLearnsOnlyBufferAndConfiguration : Prop :=
  ∀ s s' t t' : State, s.cfg = s'.cfg → s.ib = s'.ib → exec .extPoll s = .next t →
    exec .extPoll s' = .next t' →
    t.ib = t'.ib ∧ t.x.res = t'.x.res ∧ t.x.events = t'.x.events

/-- 41_extractor.md section 6 (R140 a, derived by the spec): after an incomplete poll another one is
incomplete again and leaves IB as it is. -/
def Obligations.IncompletePollRepeats : Prop :=
  ∀ s t : State, exec .extPoll s = .next t → t.x.res.complete = false →
    ∃ u, exec .extPoll t = .next u ∧ u.x.res = t.x.res ∧ u.ib = t.ib

/-- 41_extractor.md section 6 (R140 c, derived by the spec): a poll that was incomplete costs nothing. With
more bytes appended the next poll returns what a poll of all the bytes at once returns. -/
def Obligations.IncompletePollLosesNothing : Prop :=
  ∀ (s t : State) (more : List Byte), exec .extPoll s = .next t → t.x.res.complete = false →
    ∃ u v, exec .extPoll { t with ib := t.ib ++ more } = .next u ∧
      exec .extPoll { s with ib := s.ib ++ more } = .next v ∧
      u.x.res = v.x.res ∧ u.ib = v.ib

/-- 41_extractor.md R144, and the resynchronisation property of 95_test_vectors.md section 1: garbage
without a start tag in front, escape and stop tags included, changes neither the result nor the rest. That
the rest is the same where no start tag follows either is decision D4 of the spec (log 17). -/
def Obligations.GarbageBeforeAStartTagIsIgnored : Prop :=
  ∀ (s : State) (garbage : List Byte), s.cfg.start ∉ garbage →
    ∃ t u, exec .extPoll s = .next t ∧ exec .extPoll { s with ib := garbage ++ s.ib } = .next u ∧
      u.x.res = t.x.res ∧ u.ib = t.ib

/-- 30_encoding.md section 2 and 41_extractor.md section 4 (R81, R133 to R136; decisions D5, D6 and D7 of
the spec): between a start and a stop tag any sequence of escaped bytes and unescaped non-tags is read as
its bytes, the last of them the received remainder; without a payload the frame is short. -/
def Obligations.PollReadsAnyItems : Prop :=
  ∀ (s : State) (items : List (Bool × Byte)) (rest : List Byte), s.cfg.tagsDistinct = true →
    Wire.ItemsOk s.cfg items →
    s.ib = s.cfg.start :: (Wire.anyItems s.cfg items ++ s.cfg.stop :: rest) →
    ∃ t, exec .extPoll s = .next t ∧ t.ib = rest ∧
      (items.length ≤ 1 → t.x.res = { complete := true, valid := false, payload := [] }) ∧
      ∀ (front : List (Bool × Byte)) (e : Bool × Byte), items = front ++ [e] → front ≠ [] →
        t.x.res =
          { complete := true
            valid := crcPayload (front.map Prod.snd) s.cfg.poly == some e.2
            payload := front.map Prod.snd }

/-- 42_crc_engine.md section 2 (R166, derived by the spec): a block's frame whose checksum is no tag comes
back as the block, valid, and the poll leaves what follows the frame. -/
def Obligations.FramedBlockComesBackValid : Prop :=
  ∀ (s : State) (p rest : List Byte) (c : Byte), s.cfg.tagsDistinct = true → p.length ≤ 8 →
    crcPayload p s.cfg.poly = some c → s.cfg.isTag c = false →
    s.ib = Wire.frame s.cfg p ++ rest →
    ∃ t, exec .extPoll s = .next t ∧ t.ib = rest ∧
      t.x.res = { complete := true, valid := true, payload := p }

/-- 70_reset_and_hazards.md section 3 (R221) and 90_conflicts.md C2: what one CORE encodes another with the
same configuration gets back by repeated polls, in order, whole and valid, where no block's checksum is a
tag. -/
def Obligations.EncodedPayloadComesBack : Prop :=
  ∀ (s t r : State) (p : List Byte), s.cfg.tagsDistinct = true → r.cfg = s.cfg → s.f.pos = 0 →
    s.ob = [] → p ≠ [] → exec (.frmEncode p) s = .next t →
    (∀ b ∈ Wire.blocks p, ∀ c, crcPayload b s.cfg.poly = some c → s.cfg.isTag c = false) →
    r.ib = t.ob →
    let polled := pollResults ((p.length + 7) / 8) r
    (polled.1.map Result.payload).flatten = p ∧
      (∀ res ∈ polled.1, res.complete = true ∧ res.valid = true) ∧ polled.2.ib = []

/-- 30_encoding.md section 3 (R84, derived by the spec): what a poll makes of an intact frame whose checksum
is a tag. Equal to `ESC`, the frame does not end at its stop tag: through whatever items follow, the poll is
incomplete at the end of the bytes, and a start tag restarts it there with this frame lost. Equal to `START`,
the empty result is decision D6 of the spec (log 18). -/
def Obligations.ChecksumEqualToATag : Prop :=
  ∀ (s : State) (p rest : List Byte) (items : List (Bool × Byte)) (c : Byte),
    s.cfg.tagsDistinct = true → p ≠ [] → p.length ≤ 8 → crcPayload p s.cfg.poly = some c →
    Wire.ItemsOk s.cfg items →
    (c = s.cfg.esc → s.ib = Wire.frame s.cfg p ++ Wire.anyItems s.cfg items →
      ∃ t, exec .extPoll s = .next t ∧ t.x.res = Result.incomplete ∧ t.ib = s.ib) ∧
    (c = s.cfg.esc →
      s.ib = Wire.frame s.cfg p ++ Wire.anyItems s.cfg items ++ s.cfg.start :: rest →
      ∃ t u, exec .extPoll s = .next t ∧
        exec .extPoll { s with ib := s.cfg.start :: rest } = .next u ∧
        t.x.res = u.x.res ∧ t.ib = u.ib ∧ t.x.events = .resyncRestart :: u.x.events) ∧
    (c = s.cfg.stop → s.ib = Wire.frame s.cfg p ++ rest →
      ∃ t, exec .extPoll s = .next t ∧ t.ib = s.cfg.stop :: rest ∧ t.x.res.complete = true ∧
        t.x.res.payload = p.dropLast) ∧
    (c = s.cfg.start → s.ib = Wire.frame s.cfg p ++ rest →
      ∃ t, exec .extPoll s = .next t ∧ t.ib = rest ∧
        t.x.res = { complete := true, valid := false, payload := [] })

/-- 42_crc_engine.md section 3 (R174, derived by the spec): with the default polynomial one flipped bit in
a payload byte, both values outside the tags, is returned as not valid. -/
def Obligations.SingleBitFlipIsFlagged : Prop :=
  ∀ (s : State) (p rest : List Byte) (i k : Nat) (b c : Byte), s.cfg.tagsDistinct = true →
    s.cfg.poly = 0x87#8 → p.length ≤ 8 → p[i]? = some b → k < 8 → s.cfg.isTag b = false →
    s.cfg.isTag (b ^^^ (1#8 <<< k)) = false → crcPayload p s.cfg.poly = some c →
    s.cfg.isTag c = false →
    s.ib =
      s.cfg.start ::
        (Wire.block s.cfg (p.set i (b ^^^ (1#8 <<< k))) ++ c :: s.cfg.stop :: rest) →
    ∃ t, exec .extPoll s = .next t ∧ t.ib = rest ∧
      t.x.res = { complete := true, valid := false, payload := p.set i (b ^^^ (1#8 <<< k)) }

/-- 41_extractor.md section 7 (R142, derived by the spec): the register form computes the result that the
accumulate-then-split form returns. That both forms are held, and that the scratch registers can be read
after the poll, is the model's choice (logs 14 and 21). -/
def Obligations.RegisterFormComputesTheResult : Prop :=
  ∀ s t : State, exec .extPoll s = .next t → t.x.res.complete = true →
    t.x.res = registerResult s.cfg.poly t.x

/-! ### The step -/

/-- 20_memory.md section 6 (R60) and 00_scope.md section 6: a step performs the next call. The list of
calls and the taking off are the model's (log 3), and so is the layout of operand words (log 20). -/
def Obligations.StepPerformsTheNextCall : Prop :=
  ∀ (s : State) (c : Call) (rest : List Call) (i : Instr), s.cfg.tagsDistinct = true →
    s.x.busy = false → s.agenda = c :: rest → decode s.cfg (.call c.port) c.bytes = .ok i →
    step s = exec i { s with agenda := rest }

/-- 41_extractor.md section 1 (R122) and 30_encoding.md section 2: while a scan is under way a step runs
the symbol that the byte at the cursor, or the end, decodes to. That a step runs one symbol of an open scan
is the model's choice (log 4), and so is the decoder input in two bytes (log 20). -/
def Obligations.StepRunsTheSymbolAtTheCursor : Prop :=
  ∀ (s : State) (i : Instr), s.cfg.tagsDistinct = true → s.x.busy = true →
    (∀ b, s.ibRead s.x.cur = some b → decode s.cfg (.wire s.x.st) [b, 0x00#8] = .ok i →
      step s = exec i s) ∧
    ∀ u, s.x.cur = s.ibLen → decode s.cfg (.wire s.x.st) [u, 0x01#8] = .ok i → step s = exec i s

/-- 60_exceptions.md section 6 (R194) and 10_state.md section 7: with no operation invoked nothing changes.
That such a step answers the same state is the model's choice (log 3). -/
def Obligations.IdleStepChangesNothing : Prop :=
  ∀ s : State, s.cfg.tagsDistinct = true → s.x.busy = false → s.agenda = [] → step s = .next s

/-- 00_scope.md R4: tags that are not pairwise distinct are no configuration, and the machine does not run
with them. -/
def Obligations.EqualTagsAreRefused : Prop :=
  ∀ s : State,
    s.cfg.start = s.cfg.stop ∨ s.cfg.start = s.cfg.esc ∨ s.cfg.stop = s.cfg.esc →
    step s = .refused .tagsNotDistinct

/-- 60_exceptions.md section 1 (R185): no input makes an operation stop. With distinct tags, unbounded
memories, a scan in order and calls that are words of the interface every step answers a next state.
Which calls are words is the model's (log 20). -/
def Obligations.NothingStopsTheMachine : Prop :=
  ∀ s : State, s.cfg.tagsDistinct = true → s.cfg.ibCap = none → s.cfg.obCap = none → ScanInv s →
    (∀ c ∈ s.agenda, ∃ i, decode s.cfg (.call c.port) c.bytes = .ok i) →
    ∃ t, step s = .next t

/-! ### Invariants -/

/-- 10_state.md section 7 and 70_reset_and_hazards.md section 1 (R34 and R211, decision D11 of the spec): what
a CORE created with given parameters holds, that each invariant below holds of it, and that its first poll is
incomplete; without parameters, the defaults (log 2: the tag numbers and the unbounded capacities are
presumed, D1 and D13). That the result is a coded one before the first poll rests on the value the model
names for it (log 1). The other values that R34 leaves unspecified are not stated. -/
def Obligations.ResetStateIsFresh : Prop :=
  (∀ c : Config,
    (State.create c).cfg = c ∧ (State.create c).f.pos = 0 ∧ (State.create c).ib = [] ∧
      (State.create c).ob = [] ∧ (State.create c).diag = [] ∧
      WithinCapacity (State.create c) ∧ ScanInv (State.create c) ∧ FramerInv (State.create c) ∧
      ResultOk (State.create c).x.res ∧
      (c.tagsDistinct = true → step (State.create c) = .next (State.create c)) ∧
      ∃ t, exec .extPoll (State.create c) = .next t ∧ t.x.res = Result.incomplete ∧ t.ib = []) ∧
    State.reset = State.create Config.default ∧ Config.default.start = 0x7B#8 ∧
    Config.default.stop = 0x7D#8 ∧ Config.default.esc = 0x5C#8 ∧ Config.default.poly = 0x87#8 ∧
    Config.default.ibCap = none ∧ Config.default.obCap = none ∧ Config.default.tagsDistinct = true

/-- 10_state.md section 1 (R20, decision D15 of the spec): no instruction and no step writes a
configuration constant. -/
def Obligations.ConfigurationIsNeverWritten : Prop :=
  (∀ (i : Instr) (s t : State), exec i s = .next t → t.cfg = s.cfg) ∧
    ∀ s t : State, step s = .next t → t.cfg = s.cfg

/-- 10_state.md section 3 and 30_encoding.md section 1 (R21, R22, R70): every step keeps OB a sequence of
whole frames followed by the open block, with `F.pos` its length and `F.crc` its running remainder. -/
def Obligations.StepKeepsObWellFramed : Prop :=
  ∀ s t : State, FramerInv s → step s = .next t → FramerInv t

/-- 41_extractor.md sections 1 to 3 and 7 (R121 to R132, R142): every step keeps a scan in order: cursor in
IB, anchor at offset 0, no start tag passed over, the two forms of the accumulation in agreement. That both
forms are held is the model's (log 14), and an open scan between steps too (log 4). -/
def Obligations.StepKeepsTheScanInOrder : Prop :=
  ∀ s t : State, ScanInv s → step s = .next t → ScanInv t

/-- 20_memory.md sections 1 and 2 (R50, R54, R57): every step keeps both memories within their
capacities. -/
def Obligations.StepKeepsTheCapacities : Prop :=
  ∀ s t : State, WithinCapacity s → step s = .next t → WithinCapacity t

/-- 30_encoding.md section 4 (R86, decision D19 of the spec): every step keeps the result one of its three
codes; the code `01` is never produced, and without a frame there is no payload. -/
def Obligations.StepKeepsTheResultCoded : Prop :=
  ∀ s t : State, ResultOk s.x.res → step s = .next t →
    ResultOk t.x.res ∧ t.x.res.status ≠ 0b01#2

/-- 20_memory.md section 2 (R57): the Framer alone adds to OB, nothing is removed from it, and no
operation depends on what it holds. -/
def Obligations.ObOnlyGrowsAndIsNeverRead : Prop :=
  (∀ (i : Instr) (s t : State), exec i s = .next t → ∃ w, t.ob = s.ob ++ w) ∧
    ∀ (i : Instr) (s t : State) (other : List Byte), s.cfg.obCap = none → exec i s = .next t →
      ∃ w, t.ob = s.ob ++ w ∧
        exec i { s with ob := other } = .next { t with ob := other ++ w }

/-! ### Encoding -/

/-- 30_encoding.md sections 2 and 4 (R80 and R85 to R87): every instruction that has an encoding decodes
from it, with every operand its row admits, and only the CRC operations have none. The layout in bytes is the
model's (log 20). -/
def Obligations.DecodeOfEncodeIsTheInstruction : Prop :=
  ∀ (c : Config) (i : Instr), c.tagsDistinct = true → i.wellFormed c = true →
    (∀ f bytes, encode c i = some (f, bytes) → decode c f bytes = .ok i) ∧
    (encode c i = none ↔
      (∃ u bit, i = .crcStep u bit) ∨ (∃ u v, i = .crcByte u v) ∨ (∃ u, i = .crcDrain u) ∨
        ∃ u v, i = .crcSeed u v)

/-- 30_encoding.md section 4 (R85 to R87, formats of decision D10 of the spec): the operand words of the
invoked operations, bit for bit. That a 9-bit word comes in two bytes, low bits first, is the model's
(log 20). -/
def Obligations.CallWordsDecode : Prop :=
  (∀ (c : Config) (w : BitVec 9),
    decode c (.call .frmByte) [w.extractLsb' 0 8, (w.extractLsb' 8 1).setWidth 8] =
      .ok (.frmByte (w.extractLsb' 0 8) (w.getLsbD 8))) ∧
    (∀ (c : Config) (d : Byte), decode c (.call .ibAppend) [d] = .ok (.ibAppend d)) ∧
    (∀ (c : Config) (p : List Byte), p ≠ [] → decode c (.call .frmEncode) p = .ok (.frmEncode p)) ∧
    ∀ c : Config, decode c (.call .extPoll) [] = .ok .extPoll

/-- Words written out from the opcode table and 30_encoding.md sections 2 and 4, one for each row that has an
encoding. The tags are the default ones (log 2), and a 9-bit word comes in two bytes, low bits first
(log 20). -/
def Obligations.WordsOfTheTableDecode : Prop :=
  decode Config.default (.wire .hunt) [0b01111011#8, 0b00000000#8] = .ok .hStart ∧
    decode Config.default (.wire .hunt) [0b01111101#8, 0b00000000#8] = .ok (.hSkip 0x7D#8) ∧
    decode Config.default (.wire .hunt) [0b00000000#8, 0b00000001#8] = .ok .hEnd ∧
    decode Config.default (.wire .frame) [0b01011100#8, 0b00000000#8] = .ok .fEsc ∧
    decode Config.default (.wire .frame) [0b01111101#8, 0b00000000#8] = .ok .fStop ∧
    decode Config.default (.wire .frame) [0b01111011#8, 0b00000000#8] = .ok .fStart ∧
    decode Config.default (.wire .frame) [0b01001000#8, 0b00000000#8] = .ok (.fData 0x48#8) ∧
    decode Config.default (.wire .frame) [0b00000000#8, 0b00000001#8] = .ok .fEnd ∧
    decode Config.default (.wire .escd) [0b01111011#8, 0b00000000#8] = .ok (.eLit 0x7B#8) ∧
    decode Config.default (.wire .escd) [0b00000000#8, 0b00000001#8] = .ok .eEnd ∧
    decode Config.default (.call .frmByte) [0b01001111#8, 0b00000001#8] = .ok (.frmByte 0x4F#8 true) ∧
    decode Config.default (.call .frmEncode) [0b01001000#8, 0b01101001#8] =
      .ok (.frmEncode [0x48#8, 0x69#8]) ∧
    decode Config.default (.call .extPoll) [] = .ok .extPoll ∧
    decode Config.default (.call .ibAppend) [0b01111011#8] = .ok (.ibAppend 0x7B#8)
end

