-- ==== Sys2Proof/Laws/State.lean ====
section
/-! SUPPORT. The fields of State after each named update, true by definition: later proofs use these
and do not unfold a record update. -/

namespace Sys2Proof.Machine.State

@[simp] theorem create_cfg (c : Config) : (create c).cfg = c := rfl
@[simp] theorem create_f (c : Config) : (create c).f = Framer.reset := rfl
@[simp] theorem create_x (c : Config) : (create c).x = Extractor.reset := rfl
@[simp] theorem create_ib (c : Config) : (create c).ib = [] := rfl
@[simp] theorem create_ob (c : Config) : (create c).ob = [] := rfl
@[simp] theorem create_diag (c : Config) : (create c).diag = [] := rfl
@[simp] theorem create_agenda (c : Config) : (create c).agenda = [] := rfl

/-- Without parameters the defaults hold (10_state.md R34). -/
theorem reset_eq_create : reset = create Config.default := rfl

variable (s : State)

@[simp] theorem ibConsume_cfg (n : Nat) : (s.ibConsume n).cfg = s.cfg := rfl
@[simp] theorem ibConsume_f (n : Nat) : (s.ibConsume n).f = s.f := rfl
@[simp] theorem ibConsume_x (n : Nat) : (s.ibConsume n).x = s.x := rfl
@[simp] theorem ibConsume_ib (n : Nat) : (s.ibConsume n).ib = s.ib.drop n := rfl
@[simp] theorem ibConsume_ob (n : Nat) : (s.ibConsume n).ob = s.ob := rfl
@[simp] theorem ibConsume_diag (n : Nat) : (s.ibConsume n).diag = s.diag := rfl
@[simp] theorem ibConsume_agenda (n : Nat) : (s.ibConsume n).agenda = s.agenda := rfl

@[simp] theorem ibAppend_cfg (b : Byte) : (s.ibAppend b).cfg = s.cfg := rfl
@[simp] theorem ibAppend_f (b : Byte) : (s.ibAppend b).f = s.f := rfl
@[simp] theorem ibAppend_x (b : Byte) : (s.ibAppend b).x = s.x := rfl
@[simp] theorem ibAppend_ib (b : Byte) : (s.ibAppend b).ib = s.ib ++ [b] := rfl
@[simp] theorem ibAppend_ob (b : Byte) : (s.ibAppend b).ob = s.ob := rfl
@[simp] theorem ibAppend_diag (b : Byte) : (s.ibAppend b).diag = s.diag := rfl
@[simp] theorem ibAppend_agenda (b : Byte) : (s.ibAppend b).agenda = s.agenda := rfl

@[simp] theorem emit_cfg (b : Byte) : (s.emit b).cfg = s.cfg := rfl
@[simp] theorem emit_f (b : Byte) : (s.emit b).f = s.f := rfl
@[simp] theorem emit_x (b : Byte) : (s.emit b).x = s.x := rfl
@[simp] theorem emit_ib (b : Byte) : (s.emit b).ib = s.ib := rfl
@[simp] theorem emit_ob (b : Byte) : (s.emit b).ob = s.ob ++ [b] := rfl
@[simp] theorem emit_diag (b : Byte) : (s.emit b).diag = s.diag := rfl
@[simp] theorem emit_agenda (b : Byte) : (s.emit b).agenda = s.agenda := rfl

@[simp] theorem raise_cfg (e : Event) : (s.raise e).cfg = s.cfg := rfl
@[simp] theorem raise_f (e : Event) : (s.raise e).f = s.f := rfl
@[simp] theorem raise_x (e : Event) : (s.raise e).x = { s.x with events := s.x.events ++ [e] } := rfl
@[simp] theorem raise_ib (e : Event) : (s.raise e).ib = s.ib := rfl
@[simp] theorem raise_ob (e : Event) : (s.raise e).ob = s.ob := rfl
@[simp] theorem raise_diag (e : Event) : (s.raise e).diag = s.diag := rfl
@[simp] theorem raise_agenda (e : Event) : (s.raise e).agenda = s.agenda := rfl

@[simp] theorem setCur_cfg (n : Nat) : (s.setCur n).cfg = s.cfg := rfl
@[simp] theorem setCur_f (n : Nat) : (s.setCur n).f = s.f := rfl
@[simp] theorem setCur_x (n : Nat) : (s.setCur n).x = { s.x with cur := n } := rfl
@[simp] theorem setCur_ib (n : Nat) : (s.setCur n).ib = s.ib := rfl
@[simp] theorem setCur_ob (n : Nat) : (s.setCur n).ob = s.ob := rfl
@[simp] theorem setCur_diag (n : Nat) : (s.setCur n).diag = s.diag := rfl
@[simp] theorem setCur_agenda (n : Nat) : (s.setCur n).agenda = s.agenda := rfl

@[simp] theorem setSt_cfg (st : ScanState) : (s.setSt st).cfg = s.cfg := rfl
@[simp] theorem setSt_f (st : ScanState) : (s.setSt st).f = s.f := rfl
@[simp] theorem setSt_x (st : ScanState) : (s.setSt st).x = { s.x with st := st } := rfl
@[simp] theorem setSt_ib (st : ScanState) : (s.setSt st).ib = s.ib := rfl
@[simp] theorem setSt_ob (st : ScanState) : (s.setSt st).ob = s.ob := rfl
@[simp] theorem setSt_diag (st : ScanState) : (s.setSt st).diag = s.diag := rfl
@[simp] theorem setSt_agenda (st : ScanState) : (s.setSt st).agenda = s.agenda := rfl

@[simp] theorem setPos_cfg (p : Fin 8) : (s.setPos p).cfg = s.cfg := rfl
@[simp] theorem setPos_f (p : Fin 8) : (s.setPos p).f = { s.f with pos := p } := rfl
@[simp] theorem setPos_x (p : Fin 8) : (s.setPos p).x = s.x := rfl
@[simp] theorem setPos_ib (p : Fin 8) : (s.setPos p).ib = s.ib := rfl
@[simp] theorem setPos_ob (p : Fin 8) : (s.setPos p).ob = s.ob := rfl
@[simp] theorem setPos_diag (p : Fin 8) : (s.setPos p).diag = s.diag := rfl
@[simp] theorem setPos_agenda (p : Fin 8) : (s.setPos p).agenda = s.agenda := rfl

@[simp] theorem setCrcReg_framer_f (v : Byte) :
    (s.setCrcReg .framer v).f = { s.f with crc := v } := rfl
@[simp] theorem setCrcReg_framer_x (v : Byte) : (s.setCrcReg .framer v).x = s.x := rfl
@[simp] theorem setCrcReg_extractor_x (v : Byte) :
    (s.setCrcReg .extractor v).x = { s.x with crc := v } := rfl
@[simp] theorem setCrcReg_extractor_f (v : Byte) : (s.setCrcReg .extractor v).f = s.f := rfl
@[simp] theorem setCrcReg_cfg (u : CrcUnit) (v : Byte) : (s.setCrcReg u v).cfg = s.cfg := by
  cases u <;> rfl
@[simp] theorem setCrcReg_ib (u : CrcUnit) (v : Byte) : (s.setCrcReg u v).ib = s.ib := by
  cases u <;> rfl
@[simp] theorem setCrcReg_ob (u : CrcUnit) (v : Byte) : (s.setCrcReg u v).ob = s.ob := by
  cases u <;> rfl
@[simp] theorem setCrcReg_diag (u : CrcUnit) (v : Byte) : (s.setCrcReg u v).diag = s.diag := by
  cases u <;> rfl
@[simp] theorem setCrcReg_agenda (u : CrcUnit) (v : Byte) : (s.setCrcReg u v).agenda = s.agenda := by
  cases u <;> rfl
@[simp] theorem crcReg_framer : s.crcReg .framer = s.f.crc := rfl
@[simp] theorem crcReg_extractor : s.crcReg .extractor = s.x.crc := rfl

/-- A register reads back what was loaded into it. -/
@[simp] theorem crcReg_setCrcReg_same (u : CrcUnit) (v : Byte) : (s.setCrcReg u v).crcReg u = v := by
  cases u <;> rfl

/-- Loading one unit's register leaves the other unit's alone (10_state.md R33). -/
theorem crcReg_setCrcReg_other {u w : CrcUnit} (h : u ≠ w) (v : Byte) :
    (s.setCrcReg u v).crcReg w = s.crcReg w := by
  cases u <;> cases w <;> first | rfl | exact absurd rfl h

@[simp] theorem report_cfg : s.report.cfg = s.cfg := by
  unfold report; split <;> rfl
@[simp] theorem report_f : s.report.f = s.f := by
  unfold report; split <;> rfl
@[simp] theorem report_x : s.report.x = s.x := by
  unfold report; split <;> rfl
@[simp] theorem report_ib : s.report.ib = s.ib := by
  unfold report; split <;> rfl
@[simp] theorem report_ob : s.report.ob = s.ob := by
  unfold report; split <;> rfl
@[simp] theorem report_agenda : s.report.agenda = s.agenda := by
  unfold report; split <;> rfl

/-- A report reaches the sink exactly where one is attached (60_exceptions.md R188). -/
@[simp] theorem report_diag :
    s.report.diag = s.diag ++ (if s.cfg.diagSink then [.report] else []) := by
  unfold report; split <;> simp_all

end Sys2Proof.Machine.State
end

