-- ==== Sys2Proof/Laws/Crc.lean ====
section
/-! SUPPORT. The laws of the CRC Engine: the loop of `CrcPayload` over a sequence, and what each
operation on a unit's register does. -/

namespace Sys2Proof.Machine

/-- Eight steps, most significant bit first (42_crc_engine.md R161). -/
theorem crcByte_eq_steps (r v poly : Byte) :
    crcByte r v poly =
      crcStep (crcStep (crcStep (crcStep (crcStep (crcStep (crcStep (crcStep r (v.getLsbD 7) poly)
        (v.getLsbD 6) poly) (v.getLsbD 5) poly) (v.getLsbD 4) poly) (v.getLsbD 3) poly)
        (v.getLsbD 2) poly) (v.getLsbD 1) poly) (v.getLsbD 0) poly := rfl

@[simp] theorem crcRun_nil (poly : Byte) (i : Nat) (r : Byte) : crcRun poly i r [] = r := rfl

theorem crcRun_cons (poly : Byte) (i : Nat) (r b : Byte) (rest : List Byte) :
    crcRun poly i r (b :: rest) =
      crcRun poly (i + 1) (crcByte (if i % 8 = 0 then b else r) b poly) rest := rfl

/-- The loop over a concatenation is the loop over the second part from where the first left off. -/
theorem crcRun_append (poly : Byte) (i : Nat) (r : Byte) (p q : List Byte) :
    crcRun poly i r (p ++ q) = crcRun poly (i + p.length) (crcRun poly i r p) q := by
  induction p generalizing i r with
  | nil => rfl
  | cons b rest ih =>
    rw [List.cons_append, crcRun_cons, ih, crcRun_cons, List.length_cons, Nat.add_right_comm,
      Nat.add_assoc]

/-- One more byte: seeded at every eighth index, then fed (42_crc_engine.md R165). -/
theorem crcRun_snoc (poly : Byte) (i : Nat) (r b : Byte) (p : List Byte) :
    crcRun poly i r (p ++ [b]) =
      crcByte (if (i + p.length) % 8 = 0 then b else crcRun poly i r p) b poly := by
  rw [crcRun_append, crcRun_cons, crcRun_nil]

/-- At an index that is a multiple of 8 the remainder so far is discarded. -/
theorem crcRun_reseeds (poly : Byte) {i : Nat} (h : i % 8 = 0) (r r' : Byte) {p : List Byte}
    (hp : p ≠ []) : crcRun poly i r p = crcRun poly i r' p := by
  cases p with
  | nil => exact absurd rfl hp
  | cons b rest => rw [crcRun_cons, crcRun_cons, if_pos h, if_pos h]

/-- The loop depends on its index modulo 8 only. -/
theorem crcRun_index_mod (poly : Byte) {i j : Nat} (h : i % 8 = j % 8) (r : Byte) (p : List Byte) :
    crcRun poly i r p = crcRun poly j r p := by
  induction p generalizing i j r with
  | nil => rfl
  | cons b rest ih => rw [crcRun_cons, crcRun_cons, h]; exact ih (by omega) _

@[simp] theorem crcPayload_nil (poly : Byte) : crcPayload [] poly = none := rfl

/-- The checksum of a payload with a byte (42_crc_engine.md R165). -/
theorem crcPayload_cons (b : Byte) (rest : List Byte) (poly : Byte) :
    crcPayload (b :: rest) poly = some (crcDrain (crcRun poly 0 b (b :: rest)) poly) := rfl

/-- The checksum of any payload with a byte, whatever the remainder before index 0. -/
theorem crcPayload_of_ne_nil {p : List Byte} (hp : p ≠ []) (r poly : Byte) :
    crcPayload p poly = some (crcDrain (crcRun poly 0 r p) poly) := by
  cases p with
  | nil => exact absurd rfl hp
  | cons b rest => rw [crcPayload_cons, crcRun_reseeds poly rfl b r hp]

/-- Each register operation is one load of the caller's register. -/
theorem stepReg_eq (s : State) (u : CrcUnit) (bit : Bool) :
    stepReg s u bit = s.setCrcReg u (crcStep (s.crcReg u) bit s.cfg.poly) := rfl

theorem feedReg_eq (s : State) (u : CrcUnit) (v : Byte) :
    feedReg s u v = s.setCrcReg u (crcByte (s.crcReg u) v s.cfg.poly) := rfl

theorem drainReg_eq (s : State) (u : CrcUnit) :
    drainReg s u = s.setCrcReg u (crcDrain (s.crcReg u) s.cfg.poly) := rfl

theorem seedReg_eq (s : State) (u : CrcUnit) (v : Byte) : seedReg s u v = s.setCrcReg u v := rfl

end Sys2Proof.Machine
end

