-- ==== Sys2Proof/Laws/Memory.lean ====
section
/-! SUPPORT. The laws of the two byte sequences: reads after the memory operations, and the canonical
form of the cells, which every operation keeps. -/

namespace Sys2Proof.Machine

/-- The cells of every sequence are in the canonical form. -/
theorem Memory.cells_wf (m : List Byte) : Memory.wf (Memory.cells m) = true := by
  simp only [Memory.wf, Memory.cells, List.map_map, List.length_map, List.length_zipIdx, beq_iff_eq]
  refine List.ext_getElem (by simp) fun i h1 h2 => ?_
  simp

/-- Equal cells are equal sequences: the form is one per memory. -/
theorem Memory.cells_inj {m n : List Byte} (h : Memory.cells m = Memory.cells n) : m = n := by
  have snds : ∀ l : List Byte, (Memory.cells l).map Prod.snd = l := fun l => by
    refine List.ext_getElem (by simp [Memory.cells]) fun i h1 h2 => ?_
    simp [Memory.cells]
  rw [← snds m, ← snds n, h]

namespace State

variable (s : State)

/-- `IbConsume` keeps the canonical form. -/
theorem ibConsume_wf (n : Nat) : Memory.wf (Memory.cells (s.ibConsume n).ib) = true :=
  Memory.cells_wf _

/-- `IbAppend` keeps the canonical form. -/
theorem ibAppend_wf (b : Byte) : Memory.wf (Memory.cells (s.ibAppend b).ib) = true :=
  Memory.cells_wf _

/-- `emit` keeps the canonical form. -/
theorem emit_wf (b : Byte) : Memory.wf (Memory.cells (s.emit b).ob) = true := Memory.cells_wf _

/-- Both memories have the canonical form after reset. -/
theorem reset_wf : Memory.wf (Memory.cells reset.ib) = true ∧ Memory.wf (Memory.cells reset.ob) = true :=
  ⟨Memory.cells_wf _, Memory.cells_wf _⟩

/-- `IbConsume(n)` lowers every remaining offset by `n` (20_memory.md R53). -/
@[simp] theorem ibRead_ibConsume (n i : Nat) : (s.ibConsume n).ibRead i = s.ibRead (n + i) := by
  simp [ibRead]

/-- `IbConsume(n)` shortens IB by `n` (20_memory.md R53). -/
@[simp] theorem ibLen_ibConsume (n : Nat) : (s.ibConsume n).ibLen = s.ibLen - n := by
  simp [ibLen]

/-- `IbConsume(0)` changes nothing (20_memory.md R53). -/
@[simp] theorem ibConsume_zero : s.ibConsume 0 = s := rfl

/-- `IbAppend` leaves every byte already in IB (20_memory.md R54). -/
theorem ibRead_ibAppend_old {i : Nat} (h : i < s.ibLen) (b : Byte) :
    (s.ibAppend b).ibRead i = s.ibRead i := by
  simp only [ibRead, ibAppend_ib]; exact List.getElem?_append_left h

/-- The appended byte is the last one (20_memory.md R54). -/
@[simp] theorem ibRead_ibAppend_new (b : Byte) : (s.ibAppend b).ibRead s.ibLen = some b := by
  simp [ibRead, ibLen]

/-- `IbAppend` lengthens IB by one. -/
@[simp] theorem ibLen_ibAppend (b : Byte) : (s.ibAppend b).ibLen = s.ibLen + 1 := by
  simp [ibLen]

/-- `emit` leaves every byte already in OB (20_memory.md R57). -/
theorem obRead_emit_old {i : Nat} (h : i < s.ob.length) (b : Byte) :
    (s.emit b).obRead i = s.obRead i := by
  simp only [obRead, emit_ob]; exact List.getElem?_append_left h

/-- The emitted byte is the last one (20_memory.md R57). -/
@[simp] theorem obRead_emit_new (b : Byte) : (s.emit b).obRead s.ob.length = some b := by
  simp [obRead]

/-- There is a byte at an offset exactly below `IbLen()` (20_memory.md R52). -/
theorem ibRead_eq_none_iff (i : Nat) : s.ibRead i = none ↔ s.ibLen ≤ i := by
  simp [ibRead, ibLen]

end State

/-- An operation that ends within the sink's capacity answers its state, and nothing else. -/
theorem withinSink_eq_next {t u : State} :
    withinSink t = .next u ↔ u = t ∧ fits t.cfg.obCap t.ob.length = true := by
  unfold withinSink
  split
  · next h => simp only [Host.Outcome.next.injEq, h, and_true]; exact eq_comm
  · next h => simp [h]

/-- An unbounded memory holds any length (20_memory.md R50, R57). -/
@[simp] theorem fits_none (n : Nat) : fits none n = true := rfl

/-- A bounded memory holds a length up to its capacity. -/
@[simp] theorem fits_some (cap n : Nat) : fits (some cap) n = decide (n ≤ cap) := rfl

end Sys2Proof.Machine
end

