-- ==== Sys2Proof/Laws/Extractor.lean ====
section
/-! SUPPORT. What one scan step of the Extractor does: the symbol at the cursor, each action's fields,
and the scan loop's unfolding. -/

namespace Sys2Proof.Machine

variable (s : State)

/-- A symbol runs exactly where it is the symbol at the cursor (41_extractor.md R122). -/
theorem onSymbol_eq_next {sym : Symbol} {t : State} :
    onSymbol sym s = .next t ↔ symbolAt s = some sym ∧ t = symbolAction sym s := by
  unfold onSymbol
  split
  · next h => simp only [Host.Outcome.next.injEq, h, true_and]; exact eq_comm
  · next h => simp [h]

/-- With a byte under the cursor the symbol is its classification (30_encoding.md R80). -/
theorem symbolAt_of_byte {b : Byte} (h : s.ibRead s.x.cur = some b) :
    symbolAt s = some (decodeSymbol s.cfg s.x.st (some b)) := by
  simp [symbolAt, h]

/-- At the end of the available bytes it is the end symbol of the scan state (30_encoding.md R80). -/
theorem symbolAt_of_end (h : s.x.cur = s.ibLen) :
    symbolAt s = some (decodeSymbol s.cfg s.x.st none) := by
  have : s.ibRead s.x.cur = none := (s.ibRead_eq_none_iff _).2 h.ge
  unfold symbolAt
  rw [this]
  exact if_pos h

/-- There is a symbol exactly while the cursor is not past the end (20_memory.md R52). -/
theorem symbolAt_isSome : (symbolAt s).isSome ↔ s.x.cur ≤ s.ibLen := by
  unfold symbolAt
  split
  · next b h =>
    have : ¬ s.ibLen ≤ s.x.cur := fun hle => by simp [(s.ibRead_eq_none_iff _).2 hle] at h
    simp; omega
  · next h =>
    have := (s.ibRead_eq_none_iff _).1 h
    split <;> simp <;> omega

/-- Every symbol's meaning is `onSymbol` of it. -/
theorem exec_instr (sym : Symbol) : exec sym.instr s = onSymbol sym s := by cases sym <;> rfl

@[simp] theorem clearAcc_cfg : (clearAcc s).cfg = s.cfg := rfl
@[simp] theorem clearAcc_f : (clearAcc s).f = s.f := rfl
@[simp] theorem clearAcc_ib : (clearAcc s).ib = s.ib := rfl
@[simp] theorem clearAcc_ob : (clearAcc s).ob = s.ob := rfl
@[simp] theorem clearAcc_diag : (clearAcc s).diag = s.diag := rfl
@[simp] theorem clearAcc_agenda : (clearAcc s).agenda = s.agenda := rfl
@[simp] theorem clearAcc_x :
    (clearAcc s).x = { s.x with acc := [], hv := false, pv := false, cnt := 0, pay := [] } := rfl

@[simp] theorem endScan_cfg (r : Result) : (endScan s r).cfg = s.cfg := rfl
@[simp] theorem endScan_f (r : Result) : (endScan s r).f = s.f := rfl
@[simp] theorem endScan_ib (r : Result) : (endScan s r).ib = s.ib := rfl
@[simp] theorem endScan_ob (r : Result) : (endScan s r).ob = s.ob := rfl
@[simp] theorem endScan_diag (r : Result) : (endScan s r).diag = s.diag := rfl
@[simp] theorem endScan_agenda (r : Result) : (endScan s r).agenda = s.agenda := rfl
@[simp] theorem endScan_x (r : Result) : (endScan s r).x = { s.x with busy := false, res := r } := rfl

/-- Raising events in order appends them to the trace and changes nothing else (60_exceptions.md
R187). -/
theorem raiseAll_eq (es : List Event) :
    raiseAll s es = { s with x := { s.x with events := s.x.events ++ es } } := by
  induction es generalizing s with
  | nil => simp [raiseAll]
  | cons e rest ih =>
    have : raiseAll s (e :: rest) = raiseAll (s.raise e) rest := rfl
    rw [this, ih]
    simp [State.raise]

/-- The committed register form after the held byte (41_extractor.md R142). -/
theorem commitHeld_eq :
    commitHeld s =
      { s with x := { s.x with
          crc := crcByte (if s.x.cnt = 0 then s.x.hold else s.x.crc) s.x.hold s.cfg.poly
          pay := s.x.pay ++ [s.x.hold]
          pv := true
          cnt := s.x.cnt + 1 } } := by
  by_cases h : s.x.cnt = 0 <;>
    simp [commitHeld, feedReg_eq, seedReg_eq, State.setCrcReg, State.crcReg, h]

/-- A literal leaves the rest of the state; `X.acc` gains it and `X.hold` is it (41_extractor.md R127,
R130, R142). -/
theorem takeLiteral_eq (b : Byte) :
    takeLiteral s b =
      { s with x := { s.x with
          acc := s.x.acc ++ [b]
          hold := b
          hv := true
          crc := if s.x.hv then
              crcByte (if s.x.cnt = 0 then s.x.hold else s.x.crc) s.x.hold s.cfg.poly
            else s.x.crc
          pay := if s.x.hv then s.x.pay ++ [s.x.hold] else s.x.pay
          pv := if s.x.hv then true else s.x.pv
          cnt := if s.x.hv then s.x.cnt + 1 else s.x.cnt } } := by
  unfold takeLiteral
  by_cases h : s.x.hv = true
  · simp [h, commitHeld_eq]
  · simp [h]

/-- Garbage removal: the bytes before the cursor go, with one event if there are any (41_extractor.md
R124, R125). -/
theorem dropGarbage_eq :
    dropGarbage s =
      { s with
        x := { s.x with
          events := if s.x.cur = 0 then s.x.events else s.x.events ++ [.resyncDrop] }
        ib := s.ib.drop s.x.cur } := by
  unfold dropGarbage
  split <;> rfl

/-- The action of `H.START` (41_extractor.md R124). -/
theorem actHStart_eq :
    actHStart s =
      { s with
        x := { s.x with
          st := .frame
          cur := 1
          acc := []
          hv := false
          pv := false
          cnt := 0
          pay := []
          events := if s.x.cur = 0 then s.x.events else s.x.events ++ [.resyncDrop] }
        ib := s.ib.drop s.x.cur } := by
  simp [actHStart, anchor, clearAcc, State.setCur, State.setSt, dropGarbage_eq]

/-- The action of `H.END` (41_extractor.md R125). -/
theorem actHEnd_eq :
    actHEnd s =
      { s with
        x := { s.x with
          busy := false
          res := Result.incomplete
          events :=
            (if s.x.cur = 0 then s.x.events else s.x.events ++ [.resyncDrop]) ++ [.incomplete] }
        ib := s.ib.drop s.x.cur } := by
  simp [actHEnd, returnIncomplete, endScan, State.raise, dropGarbage_eq]

/-- The action of `F.START` (41_extractor.md R132). -/
theorem actFStart_eq :
    actFStart s =
      { s with
        x := { s.x with
          st := .frame
          cur := 1
          acc := []
          hv := false
          pv := false
          cnt := 0
          pay := []
          events := s.x.events ++ [.resyncRestart] }
        ib := s.ib.drop s.x.cur } := by
  simp [actFStart, anchor, clearAcc, State.setCur, State.setSt, State.ibConsume, State.raise]

/-- The action of `F.END` and `E.END` (41_extractor.md R126, R129). -/
theorem returnIncomplete_eq :
    returnIncomplete s =
      { s with x := { s.x with
          busy := false, res := Result.incomplete, events := s.x.events ++ [.incomplete] } } := by
  simp [returnIncomplete, endScan, State.raise]

/-- Completion (41_extractor.md R133 to R138). -/
theorem returnFrame_eq :
    returnFrame s =
      { s with
        x := { s.x with
          busy := false
          res := frameResult s.cfg.poly s.x.acc
          events := s.x.events ++ frameEvent (frameResult s.cfg.poly s.x.acc) }
        diag := s.diag ++
          (if (frameResult s.cfg.poly s.x.acc).valid = false ∧ s.cfg.diagSink = true
            then [.report] else []) } := by
  unfold returnFrame reportUnlessValid State.report
  simp only [raiseAll_eq]
  by_cases hv : (frameResult s.cfg.poly s.x.acc).valid <;> by_cases hd : s.cfg.diagSink <;>
    simp [endScan, hv, hd]

/-- A step of a scan under way (41_extractor.md R122). -/
theorem scanStep_of_symbol {sym : Symbol} (h : symbolAt s = some sym) :
    scanStep s = symbolAction sym s := by simp [scanStep, h]

@[simp] theorem scanLoop_zero : scanLoop 0 s = s := rfl

/-- The loop does one step and goes on, while the scan is under way. -/
theorem scanLoop_busy (n : Nat) (h : s.x.busy = true) :
    scanLoop (n + 1) s = scanLoop n (scanStep s) := by simp [scanLoop, h]

/-- The loop leaves a scan that has ended alone. -/
theorem scanLoop_done (n : Nat) (h : s.x.busy = false) : scanLoop n s = s := by
  cases n <;> simp [scanLoop, h]

end Sys2Proof.Machine
end

