-- ==== Sys2Proof/Laws/Framer.lean ====
section
/-! SUPPORT. What one `FRM.BYTE` of the Framer does, field by field: the lemmas later proofs cite
instead of unfolding `frameByte`. -/

namespace Sys2Proof.Machine

variable (s : State) (b : Byte) (last : Bool)

/-- The remainder after the seed and the feed of 40_framer.md R103 and R106. -/
theorem frameByte_crc :
    (frameByte s b last).f.crc =
      if s.f.pos = 7 ∨ last = true then
        crcDrain (crcByte (if s.f.pos = 0 then b else s.f.crc) b s.cfg.poly) s.cfg.poly
      else crcByte (if s.f.pos = 0 then b else s.f.crc) b s.cfg.poly := by
  by_cases hp : s.f.pos = 0 <;> by_cases ht : s.cfg.isTag b <;>
    by_cases hc : s.f.pos = 7 ∨ last = true <;>
    simp [frameByte, closeOrAdvance, closeBlock, openBlock, escapeByte, feedReg_eq, seedReg_eq,
      drainReg_eq, hp, ht, hc] <;> simp_all

/-- The position update of 40_framer.md R108. -/
theorem frameByte_pos :
    (frameByte s b last).f.pos = if s.f.pos = 7 ∨ last = true then 0 else s.f.pos + 1 := by
  by_cases hp : s.f.pos = 0 <;> by_cases ht : s.cfg.isTag b <;>
    by_cases hc : s.f.pos = 7 ∨ last = true <;>
    simp [frameByte, closeOrAdvance, closeBlock, openBlock, escapeByte, feedReg_eq, seedReg_eq,
      drainReg_eq, hp, ht, hc] <;> simp_all

/-- The bytes emitted, in the order of 40_framer.md R103 to R107. -/
theorem frameByte_ob : (frameByte s b last).ob = s.ob ++ Safety.frameByteBytes s b last := by
  by_cases hp : s.f.pos = 0 <;> by_cases ht : s.cfg.isTag b <;>
    by_cases hc : s.f.pos = 7 ∨ last = true <;>
    simp [frameByte, closeOrAdvance, closeBlock, openBlock, escapeByte, feedReg_eq, seedReg_eq,
      drainReg_eq, Safety.frameByteBytes, hp, ht, hc] <;> simp_all

/-- The rest of the state is not the Framer's (60_exceptions.md R193). -/
theorem frameByte_frame :
    (frameByte s b last).cfg = s.cfg ∧ (frameByte s b last).x = s.x ∧
      (frameByte s b last).ib = s.ib ∧ (frameByte s b last).diag = s.diag ∧
      (frameByte s b last).agenda = s.agenda := by
  by_cases hp : s.f.pos = 0 <;> by_cases ht : s.cfg.isTag b <;>
    by_cases hc : s.f.pos = 7 ∨ last = true <;>
    simp [frameByte, closeOrAdvance, closeBlock, openBlock, escapeByte, feedReg_eq, seedReg_eq,
      drainReg_eq, hp, ht, hc] <;> simp_all

@[simp] theorem frameByte_cfg : (frameByte s b last).cfg = s.cfg := (frameByte_frame s b last).1
@[simp] theorem frameByte_x : (frameByte s b last).x = s.x := (frameByte_frame s b last).2.1
@[simp] theorem frameByte_ib : (frameByte s b last).ib = s.ib := (frameByte_frame s b last).2.2.1
@[simp] theorem frameByte_diag : (frameByte s b last).diag = s.diag :=
  (frameByte_frame s b last).2.2.2.1
@[simp] theorem frameByte_agenda : (frameByte s b last).agenda = s.agenda :=
  (frameByte_frame s b last).2.2.2.2

@[simp] theorem frameAll_nil : frameAll s [] = s := rfl

theorem frameAll_single : frameAll s [b] = frameByte s b true := rfl

/-- `FRM.ENCODE` of a longer payload is a first `FRM.BYTE` and the rest (40_framer.md R100). -/
theorem frameAll_cons {rest : List Byte} (h : rest ≠ []) :
    frameAll s (b :: rest) = frameAll (frameByte s b false) rest := by
  cases rest with
  | nil => exact absurd rfl h
  | cons c cs => rfl

/-- `FRM.ENCODE` leaves everything that is not the Framer's (60_exceptions.md R193). -/
theorem frameAll_frame (p : List Byte) :
    (frameAll s p).cfg = s.cfg ∧ (frameAll s p).x = s.x ∧ (frameAll s p).ib = s.ib ∧
      (frameAll s p).diag = s.diag ∧ (frameAll s p).agenda = s.agenda := by
  induction p generalizing s with
  | nil => simp
  | cons b rest ih =>
    by_cases h : rest = []
    · subst h; exact frameByte_frame s b true
    · simpa [frameAll_cons s b h] using ih (frameByte s b false)

/-- Bytes leave OB only by being added to (20_memory.md R57). -/
theorem frameAll_ob_grows (p : List Byte) : ∃ w, (frameAll s p).ob = s.ob ++ w := by
  induction p generalizing s with
  | nil => exact ⟨[], by simp⟩
  | cons b rest ih =>
    by_cases h : rest = []
    · subst h; exact ⟨_, frameByte_ob s b true⟩
    · obtain ⟨w, hw⟩ := ih (frameByte s b false)
      exact ⟨_, by rw [frameAll_cons s b h, hw, frameByte_ob, List.append_assoc]⟩

end Sys2Proof.Machine
end

