-- ==== Sys2Proof/Laws/Exec.lean ====
section
/-! SUPPORT. The inversion of `exec`, operation by operation: what an operation that answers a next
state did. Later proofs cite these and never unfold `exec`. -/

namespace Sys2Proof.Machine

/-- A capacity as the bound it is (20_memory.md R50, R57). -/
theorem fits_iff (cap : Option Nat) (n : Nat) : fits cap n = true ↔ ∀ k, cap = some k → n ≤ k := by
  cases cap <;> simp

/-- Every instruction is a wire symbol or one of the eight others (00_scope.md R8). -/
theorem instr_cases (i : Instr) :
    (∃ sym : Symbol, i = sym.instr) ∨ (∃ data last, i = .frmByte data last) ∨
      (∃ p, i = .frmEncode p) ∨ i = .extPoll ∨ (∃ data, i = .ibAppend data) ∨
      (∃ u bit, i = .crcStep u bit) ∨ (∃ u v, i = .crcByte u v) ∨ (∃ u, i = .crcDrain u) ∨
      ∃ u v, i = .crcSeed u v := by
  cases i
  case hStart => exact .inl ⟨.hStart, rfl⟩
  case hSkip d => exact .inl ⟨.hSkip d, rfl⟩
  case hEnd => exact .inl ⟨.hEnd, rfl⟩
  case fEsc => exact .inl ⟨.fEsc, rfl⟩
  case fStop => exact .inl ⟨.fStop, rfl⟩
  case fStart => exact .inl ⟨.fStart, rfl⟩
  case fData d => exact .inl ⟨.fData d, rfl⟩
  case fEnd => exact .inl ⟨.fEnd, rfl⟩
  case eLit d => exact .inl ⟨.eLit d, rfl⟩
  case eEnd => exact .inl ⟨.eEnd, rfl⟩
  all_goals simp

/-- A wire symbol answers a next state exactly where it is the symbol at the cursor. -/
theorem exec_symbol_eq_next {s t : State} {sym : Symbol} :
    exec sym.instr s = .next t ↔ symbolAt s = some sym ∧ t = symbolAction sym s := by
  rw [exec_instr, onSymbol_eq_next]

/-- `FRM.BYTE` that answers a next state framed the byte (40_framer.md R102). -/
theorem exec_frmByte_next {s t : State} {data : Byte} {last : Bool}
    (h : exec (.frmByte data last) s = .next t) : t = frameByte s data last :=
  (withinSink_eq_next.1 h).1

/-- `FRM.ENCODE` that answers a next state had a byte and framed them all (40_framer.md R100, R101). -/
theorem exec_frmEncode_next {s t : State} {p : List Byte} (h : exec (.frmEncode p) s = .next t) :
    p ≠ [] ∧ t = frameAll s p := by
  have h : execFrmEncode p s = .next t := h
  unfold execFrmEncode at h
  split at h
  · cases h
  · next hp => exact ⟨by simpa using hp, (withinSink_eq_next.1 h).1⟩

/-- `EXT.POLL` always answers a next state (60_exceptions.md R185). -/
theorem exec_extPoll_next {s t : State} (h : exec .extPoll s = .next t) : t = poll s := by
  cases h; rfl

/-- `IB.APPEND` that answers a next state had room (20_memory.md R54). -/
theorem exec_ibAppend_next {s t : State} {b : Byte} (h : exec (.ibAppend b) s = .next t) :
    t = s.ibAppend b ∧ fits s.cfg.ibCap (s.ibLen + 1) = true := by
  have h : execIbAppend b s = .next t := h
  unfold execIbAppend at h
  split at h
  · next hf => cases h; exact ⟨rfl, hf⟩
  · cases h

/-- What every symbol's action leaves alone, and that it removes bytes from the front of IB only
(20_memory.md R53, R56). -/
theorem symbolAction_frame {s : State} {sym : Symbol} (hs : symbolAt s = some sym) :
    (symbolAction sym s).cfg = s.cfg ∧ (symbolAction sym s).f = s.f ∧
      (symbolAction sym s).ob = s.ob ∧ (symbolAction sym s).agenda = s.agenda ∧
      ∃ n, n ≤ s.ibLen ∧ (symbolAction sym s).ib = s.ib.drop n := by
  have hcur : s.x.cur ≤ s.ibLen := (symbolAt_isSome s).1 (by simp [hs])
  have hstop : sym = .fStop → s.x.cur < s.ibLen := by
    rintro rfl
    rcases Nat.lt_or_ge s.x.cur s.ibLen with h | h
    · exact h
    · rw [symbolAt_of_end s (by omega)] at hs
      cases hst : s.x.st <;> simp [hst, decodeSymbol] at hs
  cases sym <;>
    simp [symbolAction, actHStart_eq, actHSkip, actHEnd_eq, actFEsc, advance, actFStop,
      returnFrame_eq, actFStart_eq, actFData, actELit, takeLiteral_eq, actFEnd, actEEnd,
      returnIncomplete_eq]
  all_goals first
    | exact ⟨_, hstop rfl, rfl⟩
    | exact ⟨_, hcur, rfl⟩
    | exact ⟨0, by omega, by simp⟩

end Sys2Proof.Machine
end

