-- ==== Sys2Proof/Laws/PerInstr.lean ====
section
/-! SUPPORT. A statement about every instruction as syntax, one lemma per constructor. -/

namespace Sys2Proof.Laws.WordShape

/-- The bytes of a wire symbol's word are two with the spare bits 0, and its format is the scan state
that the opcode table gives the row; an operation that has no word has none (30_encoding.md R80,
R85 to R87). -/
def Statement (i : Instr) : Prop :=
  ∀ (c : Config) (f : Format) (bytes : List Byte), encode c i = some (f, bytes) →
    (∀ st, f = .wire st → ∃ (b : Byte) (eob : Bool), bytes = bytes9 b eob) ∧
      match i with
      | .hStart => f = .wire .hunt
      | .hSkip _ => f = .wire .hunt
      | .hEnd => f = .wire .hunt
      | .fEsc => f = .wire .frame
      | .fStop => f = .wire .frame
      | .fStart => f = .wire .frame
      | .fData _ => f = .wire .frame
      | .fEnd => f = .wire .frame
      | .eLit _ => f = .wire .escd
      | .eEnd => f = .wire .escd
      | .frmByte _ _ => f = .call .frmByte ∧ bytes.length = 2
      | .frmEncode p => f = .call .frmEncode ∧ bytes.length = p.length
      | .extPoll => f = .call .extPoll ∧ bytes.length = 0
      | .ibAppend _ => f = .call .ibAppend ∧ bytes.length = 1
      | .crcStep _ _ => False
      | .crcByte _ _ => False
      | .crcDrain _ => False
      | .crcSeed _ _ => False

theorem hStart : Statement .hStart := by
  rintro c f bytes h; cases h; exact ⟨fun _ _ => ⟨_, _, rfl⟩, rfl⟩
theorem hSkip (d : Byte) : Statement (.hSkip d) := by
  rintro c f bytes h; cases h; exact ⟨fun _ _ => ⟨_, _, rfl⟩, rfl⟩
theorem hEnd : Statement .hEnd := by
  rintro c f bytes h; cases h; exact ⟨fun _ _ => ⟨_, _, rfl⟩, rfl⟩
theorem fEsc : Statement .fEsc := by
  rintro c f bytes h; cases h; exact ⟨fun _ _ => ⟨_, _, rfl⟩, rfl⟩
theorem fStop : Statement .fStop := by
  rintro c f bytes h; cases h; exact ⟨fun _ _ => ⟨_, _, rfl⟩, rfl⟩
theorem fStart : Statement .fStart := by
  rintro c f bytes h; cases h; exact ⟨fun _ _ => ⟨_, _, rfl⟩, rfl⟩
theorem fData (d : Byte) : Statement (.fData d) := by
  rintro c f bytes h; cases h; exact ⟨fun _ _ => ⟨_, _, rfl⟩, rfl⟩
theorem fEnd : Statement .fEnd := by
  rintro c f bytes h; cases h; exact ⟨fun _ _ => ⟨_, _, rfl⟩, rfl⟩
theorem eLit (d : Byte) : Statement (.eLit d) := by
  rintro c f bytes h; cases h; exact ⟨fun _ _ => ⟨_, _, rfl⟩, rfl⟩
theorem eEnd : Statement .eEnd := by
  rintro c f bytes h; cases h; exact ⟨fun _ _ => ⟨_, _, rfl⟩, rfl⟩
theorem frmByte (data : Byte) (last : Bool) : Statement (.frmByte data last) := by
  rintro c f bytes h; cases h; simp [bytes9]
theorem frmEncode (payload : List Byte) : Statement (.frmEncode payload) := by
  rintro c f bytes h; cases h; simp
theorem extPoll : Statement .extPoll := by
  rintro c f bytes h; cases h; simp
theorem ibAppend (data : Byte) : Statement (.ibAppend data) := by
  rintro c f bytes h; cases h; simp
theorem crcStep (u : CrcUnit) (bit : Bool) : Statement (.crcStep u bit) := by
  rintro c f bytes h; cases h
theorem crcByte (u : CrcUnit) (v : Byte) : Statement (.crcByte u v) := by
  rintro c f bytes h; cases h
theorem crcDrain (u : CrcUnit) : Statement (.crcDrain u) := by
  rintro c f bytes h; cases h
theorem crcSeed (u : CrcUnit) (v : Byte) : Statement (.crcSeed u v) := by
  rintro c f bytes h; cases h

end Sys2Proof.Laws.WordShape
end

