-- ==== Sys2Proof/Laws/Step.lean ====
section
/-! SUPPORT. What one step can do: the inversion of `step`, from which the invariants follow. -/

namespace Sys2Proof.Machine

/-- A step that answers a next state ran in a legal configuration, and it idled, or ran the symbol at
the cursor of a scan under way, or performed the next call of the agenda. -/
theorem step_cases {s t : State} (h : step s = .next t) :
    s.cfg.tagsDistinct = true ∧
      ((s.x.busy = true ∧ ∃ sym, symbolAt s = some sym ∧ t = symbolAction sym s) ∨
        (s.x.busy = false ∧ s.agenda = [] ∧ t = s) ∨
        (s.x.busy = false ∧ ∃ c rest i, s.agenda = c :: rest ∧ decodeCall s.cfg c = .ok i ∧
          exec i { s with agenda := rest } = .next t)) := by
  unfold step fetch at h
  by_cases hd : s.cfg.tagsDistinct = true
  · refine ⟨hd, ?_⟩
    by_cases hb : s.x.busy = true
    · left
      refine ⟨hb, ?_⟩
      simp only [hd, hb, if_true, fetchSymbol] at h
      split at h
      · next heq => split at heq <;> cases heq
      · next i u heq =>
        split at heq
        · next sym hs =>
          cases heq
          rw [exec_instr, onSymbol_eq_next] at h
          exact ⟨sym, h⟩
        · cases heq
      · cases h
    · right
      have hb' : s.x.busy = false := by simpa using hb
      simp only [hd, hb', if_true, fetchCall, Bool.false_eq_true, if_false] at h
      split at h
      · next heq =>
        left
        split at heq
        · next ha => cases h; exact ⟨hb', ha, rfl⟩
        · split at heq <;> cases heq
      · next i u heq =>
        right
        split at heq
        · cases heq
        · next c rest ha =>
          split at heq
          · next j hj => cases heq; exact ⟨hb', c, rest, _, ha, hj, h⟩
          · cases heq
      · cases h
  · simp [hd] at h

/-- A call of the agenda decodes to one of the four operations an agent can invoke (00_scope.md R8). -/
theorem decodeCall_cases {cfg : Config} {c : Call} {i : Instr} (h : decodeCall cfg c = .ok i) :
    (∃ data last, i = .frmByte data last) ∨ (∃ p, p ≠ [] ∧ i = .frmEncode p) ∨ i = .extPoll ∨
      ∃ data, i = .ibAppend data := by
  unfold decodeCall decode at h
  split at h
  · next heq => cases heq
  · split at h <;> cases h
    exact .inl ⟨_, _, rfl⟩
  · split at h <;> cases h
    next hp => exact .inr (.inl ⟨_, by simpa using hp, rfl⟩)
  · split at h <;> cases h
    exact .inr (.inr (.inl rfl))
  · split at h <;> cases h
    exact .inr (.inr (.inr ⟨_, rfl⟩))

end Sys2Proof.Machine
end

