-- ==== Sys2Proof/Laws/Wire.lean ====
section
/-! SUPPORT. The small lemmas of the wire text: items one by one and over a concatenation. -/

namespace Sys2Proof.Wire

variable (c : Config)

@[simp] theorem anyItems_nil : anyItems c [] = [] := rfl

theorem anyItems_cons (escaped : Bool) (b : Byte) (items : List (Bool × Byte)) :
    anyItems c ((escaped, b) :: items) =
      (if escaped then [c.esc, b] else [b]) ++ anyItems c items := rfl

theorem anyItems_append (items more : List (Bool × Byte)) :
    anyItems c (items ++ more) = anyItems c items ++ anyItems c more := by
  simp [anyItems]

@[simp] theorem begun_nil : begun c [] = [c.start] := rfl

/-- A frame begun grows by an item (41_extractor.md R127, R130). -/
theorem begun_snoc (items : List (Bool × Byte)) (escaped : Bool) (b : Byte) :
    begun c (items ++ [(escaped, b)]) =
      begun c items ++ if escaped then [c.esc, b] else [b] := by
  simp [begun, anyItems]

@[simp] theorem superseded_nil : superseded c [] = [] := rfl

@[simp] theorem superseded_cons (items : List (Bool × Byte)) (frames : List (List (Bool × Byte))) :
    superseded c (items :: frames) = begun c items ++ superseded c frames := rfl

@[simp] theorem itemsOk_nil : ItemsOk c [] := by intro e h; cases h

theorem itemsOk_append {items more : List (Bool × Byte)} :
    ItemsOk c (items ++ more) ↔ ItemsOk c items ∧ ItemsOk c more := by
  simp only [ItemsOk, List.mem_append, or_imp, forall_and]

@[simp] theorem block_nil : block c [] = [] := rfl

/-- A payload's block is its items, escaped where they are tags (30_encoding.md R72). -/
theorem block_eq_anyItems (p : List Byte) :
    block c p = anyItems c (p.map fun b => (c.isTag b, b)) := by
  simp only [block, anyItems, List.flatMap_map]
  rfl

end Sys2Proof.Wire
end

