-- ==== Sys2Proof/Tests/Slice0.lean ====
section
/-! SUPPORT. The model's own tests: ill-formed terms refused, words written out from the encoding
tables, one-step vectors of 95_test_vectors.md, and for each statement with hypotheses a state and
operands that meet them. -/

namespace Sys2Proof.Tests

open Sys2Proof.Machine Sys2Proof.Safety

/-! ### Helpers -/

/-- The next state, if the outcome is one. -/
def nextOf : Host.Outcome State Fault Refusal → Option State
  | .next t => some t
  | .fault _ => none
  | .refused _ => none

/-- The reset state with these bytes in IB. -/
def withIb (ib : List Byte) : State := { State.reset with ib := ib }

/-- A scan under way over IB, with literals in the accumulate form and nothing held. -/
def scanning (st : ScanState) (cur : Nat) (ib acc : List Byte) : State :=
  { State.reset with
    x := { Extractor.reset with busy := true, st := st, cur := cur, acc := acc }
    ib := ib }

/-- The reset state with both capacities. -/
def bounded (ibCap obCap : Nat) (ib ob : List Byte) : State :=
  { State.reset with
    cfg := { Config.default with ibCap := some ibCap, obCap := some obCap }
    ib := ib
    ob := ob }

/-- A CORE created with these parameters, with these bytes in IB. -/
def configured (cfg : Config) (ib : List Byte) : State := { State.create cfg with ib := ib }

/-- The reset state with these calls to come. -/
def calling (calls : List Call) : State := { State.reset with agenda := calls }

/-- The unit's register loaded. -/
def loaded (u : CrcUnit) (v : Byte) : State := State.reset.setCrcReg u v

/-- "HELLO" (95_test_vectors.md, decision D17). -/
def hello : List Byte := [0x48#8, 0x45#8, 0x4C#8, 0x4C#8, 0x4F#8]

/-- The frame of vector V1. -/
def helloFrame : List Byte := [0x7B#8, 0x48#8, 0x45#8, 0x4C#8, 0x4C#8, 0x4F#8, 0x36#8, 0x7D#8]

/-- The eight bytes of vector V3. -/
def eight : List Byte := [0x31#8, 0x32#8, 0x33#8, 0x34#8, 0x35#8, 0x36#8, 0x37#8, 0x38#8]

/-- The nine bytes of vector V4. -/
def nine : List Byte := [0x41#8, 0x42#8, 0x43#8, 0x44#8, 0x45#8, 0x46#8, 0x47#8, 0x48#8, 0x49#8]

/-! ### Ill-formed terms are refused (30_encoding.md R80, R87) -/

theorem test_wellFormed_refuses_skip_of_start :
    (Instr.hSkip 0x7B#8).wellFormed Config.default = false := by decide

theorem test_wellFormed_refuses_data_that_is_a_tag :
    (Instr.fData 0x7B#8).wellFormed Config.default = false ∧
      (Instr.fData 0x7D#8).wellFormed Config.default = false ∧
      (Instr.fData 0x5C#8).wellFormed Config.default = false := by decide

theorem test_wellFormed_refuses_empty_payload :
    (Instr.frmEncode []).wellFormed Config.default = false := by decide

/-! ### Words written out from the table of 30_encoding.md R80 and the formats of R85 to R87 -/

theorem test_decode_hStart :
    decode Config.default (.wire .hunt) [0b01111011#8, 0b00000000#8] = .ok .hStart := by decide

theorem test_decode_hSkip :
    decode Config.default (.wire .hunt) [0b01011100#8, 0b00000000#8] = .ok (.hSkip 0x5C#8) := by
  decide

theorem test_decode_hEnd :
    decode Config.default (.wire .hunt) [0b01111011#8, 0b00000001#8] = .ok .hEnd := by decide

theorem test_decode_fEsc :
    decode Config.default (.wire .frame) [0b01011100#8, 0b00000000#8] = .ok .fEsc := by decide

theorem test_decode_fStop :
    decode Config.default (.wire .frame) [0b01111101#8, 0b00000000#8] = .ok .fStop := by decide

theorem test_decode_fStart :
    decode Config.default (.wire .frame) [0b01111011#8, 0b00000000#8] = .ok .fStart := by decide

theorem test_decode_fData :
    decode Config.default (.wire .frame) [0b01111010#8, 0b00000000#8] = .ok (.fData 0x7A#8) := by
  decide

theorem test_decode_fEnd :
    decode Config.default (.wire .frame) [0b01111101#8, 0b00000001#8] = .ok .fEnd := by decide

theorem test_decode_eLit :
    decode Config.default (.wire .escd) [0b01111101#8, 0b00000000#8] = .ok (.eLit 0x7D#8) := by
  decide

theorem test_decode_eEnd :
    decode Config.default (.wire .escd) [0b00000000#8, 0b00000001#8] = .ok .eEnd := by decide

theorem test_decode_frmByte :
    decode Config.default (.call .frmByte) [0b01001111#8, 0b00000001#8] = .ok (.frmByte 0x4F#8 true) ∧
      decode Config.default (.call .frmByte) [0b01001000#8, 0b00000000#8] =
        .ok (.frmByte 0x48#8 false) := by decide

theorem test_decode_frmEncode :
    decode Config.default (.call .frmEncode) [0b01000001#8] = .ok (.frmEncode [0x41#8]) := by decide

theorem test_decode_extPoll : decode Config.default (.call .extPoll) [] = .ok .extPoll := by decide

theorem test_decode_ibAppend :
    decode Config.default (.call .ibAppend) [0b01111101#8] = .ok (.ibAppend 0x7D#8) := by decide

/-- The CRC operations take register values, not words (R87). -/
theorem test_encode_of_crc_operations :
    encode Config.default (.crcStep .framer true) = none ∧
      encode Config.default (.crcByte .extractor 0x48#8) = none ∧
      encode Config.default (.crcDrain .framer) = none ∧
      encode Config.default (.crcSeed .framer 0x41#8) = none := by decide

theorem test_decode_rejects_stray_bit_and_length :
    decode Config.default (.call .frmByte) [0x48#8, 0x02#8] = .rejected .strayBits ∧
      decode Config.default (.wire .frame) [0x48#8] = .rejected .wrongLength ∧
      decode Config.default (.call .ibAppend) [0x48#8, 0x00#8] = .rejected .wrongLength ∧
      decode Config.default (.call .frmEncode) [] = .rejected .emptyPayload := by decide

theorem test_decodeTableWord :
    decodeTableWord 16 0x05C = some .fEsc ∧ decodeTableWord 16 0x07D = some .fStop ∧
      decodeTableWord 16 0x100 = some .fEnd ∧ decodeTableWord 8 0x41 = some (.ibAppend 0x41#8) ∧
      decodeTableWord 0 0 = some .extPoll := by decide

/-! ### The CRC Engine (95_test_vectors.md section 2) -/

theorem test_crcStep_xors_then_shifts :
    (nextOf (exec (.crcStep .framer true) (loaded .framer 0x90#8))).map (·.f.crc) = some 0x2F#8 := by
  decide

theorem test_crcStep_of_extractor :
    (nextOf (exec (.crcStep .extractor false) (loaded .extractor 0x80#8))).map (·.x.crc) =
      some 0x0E#8 := by decide

theorem test_crcByte_most_significant_first :
    (nextOf (exec (.crcByte .framer 0x48#8) (loaded .framer 0x48#8))).map (·.f.crc) =
      some 0xAA#8 := by decide

theorem test_crcByte_of_zero :
    (nextOf (exec (.crcByte .extractor 0x00#8) (loaded .extractor 0xFF#8))).map (·.x.crc) =
      some 0xCC#8 := by decide

theorem test_crcDrain :
    (nextOf (exec (.crcDrain .framer) (loaded .framer 0xDD#8))).map (·.f.crc) = some 0x1E#8 := by
  decide

theorem test_crcSeed :
    (nextOf (exec (.crcSeed .extractor 0x41#8) State.reset)).map (fun t => (t.x.crc, t.f.crc)) =
      some (0x41#8, 0x00#8) := by decide

theorem test_crcPayload_vectors :
    crcPayload hello 0x87#8 = some 0x36#8 ∧ crcPayload nine 0x87#8 = some 0xD2#8 ∧
      crcPayload [0x00#8, 0x60#8] 0x87#8 = some 0x5C#8 ∧ crcPayload hello 0x31#8 = some 0x44#8 := by
  decide +kernel

/-! ### The Framer (95_test_vectors.md sections 3 and 6) -/

/-- Program P1, row 1. -/
theorem test_frmByte_opens :
    (nextOf (exec (.frmByte 0x48#8 false) State.reset)).map (fun t => (t.ob, t.f.crc, t.f.pos.val)) =
      some ([0x7B#8, 0x48#8], 0xAA#8, 1) := by decide

/-- Program P2, row 8: the eighth byte closes the block without `last`. -/
theorem test_frmByte_closes_at_eight :
    (nextOf (exec (.frmByte 0x46#8 false)
      { State.reset with f := { crc := 0x9F#8, pos := 7 } })).map
        (fun t => (t.ob, t.f.crc, t.f.pos.val)) =
      some ([0x46#8, 0x7C#8, 0x7D#8], 0x7C#8, 0) := by decide +kernel

/-- Vector V2. -/
theorem test_frmEncode_escapes_tags :
    (nextOf (exec (.frmEncode [0x7B#8, 0x7D#8, 0x5C#8]) State.reset)).map (·.ob) =
      some [0x7B#8, 0x5C#8, 0x7B#8, 0x5C#8, 0x7D#8, 0x5C#8, 0x5C#8, 0x6A#8, 0x7D#8] := by
  decide +kernel

/-- Vector V4. -/
theorem test_frmEncode_nine_bytes :
    (nextOf (exec (.frmEncode nine) State.reset)).map (·.ob) =
      some ([0x7B#8, 0x41#8, 0x42#8, 0x43#8, 0x44#8, 0x45#8, 0x46#8, 0x47#8, 0x48#8, 0x7A#8, 0x7D#8] ++
        [0x7B#8, 0x49#8, 0xD2#8, 0x7D#8]) := by
  decide +kernel

/-! ### The inbound buffer -/

theorem test_ibAppend :
    (nextOf (exec (.ibAppend 0x7D#8) (withIb [0x7B#8]))).map (·.ib) = some [0x7B#8, 0x7D#8] := by
  decide

theorem test_ibAppend_full :
    exec (.ibAppend 0x7D#8) (bounded 1 0 [0x7B#8] []) = .refused .inboundBufferFull := rfl

/-! ### The wire symbols (41_extractor.md R123 to R132; vectors V13, V14, V16, V27, V30) -/

/-- Vector V13 at its start tag: the four garbage bytes go, with `RESYNC_DROP`. -/
theorem test_hStart :
    (nextOf (exec .hStart (scanning .hunt 2 [0x78#8, 0x7D#8, 0x7B#8, 0x48#8] [0x11#8]))).map
        (fun t => (t.ib, t.x.cur, t.x.st, t.x.acc, t.x.events)) =
      some ([0x7B#8, 0x48#8], 1, .frame, [], [.resyncDrop]) := by decide

theorem test_hSkip :
    (nextOf (exec (.hSkip 0x5C#8) (scanning .hunt 0 [0x5C#8, 0x7B#8] []))).map
        (fun t => (t.ib, t.x.cur, t.x.st)) = some ([0x5C#8, 0x7B#8], 1, .hunt) := by decide

/-- Vector V22, last symbol. -/
theorem test_hEnd :
    (nextOf (exec .hEnd (scanning .hunt 2 [0x61#8, 0x7D#8] []))).map
        (fun t => (t.ib, t.x.res.complete, t.x.busy, t.x.events)) =
      some ([], false, false, [.resyncDrop, .incomplete]) := by decide

theorem test_fEsc :
    (nextOf (exec .fEsc (scanning .frame 1 [0x7B#8, 0x5C#8] []))).map
        (fun t => (t.x.cur, t.x.st, t.x.acc)) = some (2, .escd, []) := by decide

/-- Vector V10, last symbol. -/
theorem test_fStop_valid :
    (nextOf (exec .fStop (scanning .frame 7 (helloFrame ++ [0x7D#8]) (hello ++ [0x36#8])))).map
        (fun t => (t.ib, t.x.res, t.diag)) =
      some ([0x7D#8], { complete := true, valid := true, payload := hello }, []) := by
  decide +kernel

/-- Vector V11, last symbol. -/
theorem test_fStop_mismatch :
    (nextOf (exec .fStop
      (scanning .frame 7 ([0x7B#8] ++ hello ++ [0x37#8, 0x7D#8]) (hello ++ [0x37#8])))).map
        (fun t => (t.ib, t.x.res, t.x.events, t.diag)) =
      some ([], { complete := true, valid := false, payload := hello }, [.crcMismatch], [.report]) := by
  decide +kernel

/-- Vector V27, second start tag. -/
theorem test_fStart :
    (nextOf (exec .fStart (scanning .frame 1 [0x7B#8, 0x7B#8, 0x41#8] []))).map
        (fun t => (t.ib, t.x.cur, t.x.st, t.x.events)) =
      some ([0x7B#8, 0x41#8], 1, .frame, [.resyncRestart]) := by decide

theorem test_fData :
    (nextOf (exec (.fData 0x41#8) (scanning .frame 1 [0x7B#8, 0x41#8] [0x11#8]))).map
        (fun t => (t.x.acc, t.x.cur, t.x.hold, t.x.hv)) =
      some ([0x11#8, 0x41#8], 2, 0x41#8, true) := by decide

theorem test_fEnd :
    (nextOf (exec .fEnd (scanning .frame 1 [0x7B#8] []))).map
        (fun t => (t.ib, t.x.res.complete, t.x.events)) =
      some ([0x7B#8], false, [.incomplete]) := by decide

theorem test_eLit :
    (nextOf (exec (.eLit 0x7D#8) (scanning .escd 2 [0x7B#8, 0x5C#8, 0x7D#8] []))).map
        (fun t => (t.x.acc, t.x.cur, t.x.st)) = some ([0x7D#8], 3, .frame) := by decide

theorem test_eEnd :
    (nextOf (exec .eEnd (scanning .escd 2 [0x7B#8, 0x5C#8] []))).map
        (fun t => (t.ib, t.x.res.complete, t.x.busy)) =
      some ([0x7B#8, 0x5C#8], false, false) := by decide

/-! ### The poll (95_test_vectors.md section 4) -/

/-- Vector V20: the first, intact frame is lost, since its checksum is the escape tag. -/
theorem test_extPoll_checksum_collision :
    (nextOf (exec .extPoll (withIb ([0x7B#8, 0x00#8, 0x60#8, 0x5C#8, 0x7D#8] ++ helloFrame)))).map
        (fun t => (t.ib, t.x.res, t.x.events)) =
      some ([], { complete := true, valid := true, payload := hello }, [.resyncRestart]) := by
  decide +kernel

/-- Vector V17c: nine payload bytes, the last block decides. -/
theorem test_extPoll_oversize :
    (nextOf (exec .extPoll (withIb ([0x7B#8] ++ nine ++ [0x7A#8, 0x7D#8])))).map
        (fun t => (t.ib, t.x.res, t.diag)) =
      some ([], { complete := true, valid := false, payload := nine }, [.report]) := by
  decide +kernel

/-! ### The step -/

/-- A table word runs as the first instruction after reset: the row `F.STOP` ends the scan. -/
theorem test_step_runs_wire_word :
    (nextOf (step (State.reset.withFetchWord 16 0x07D))).map (fun t => (t.ib, t.x.res.complete)) =
      some ([], true) := by decide

theorem test_step_runs_call_word :
    (nextOf (step (State.reset.withFetchWord 8 0x41))).map (·.ib) = some [0x41#8] := by decide

theorem test_step_from_reset_idles : step State.reset = .next State.reset := rfl

/-- A CORE created with the parameters of vector V29 holds them, and its first poll is incomplete
(70_reset_and_hazards.md R211). -/
theorem test_create_with_parameters :
    let c : Config := { Config.default with start := 0x02#8, stop := 0x03#8, esc := 0x10#8, poly := 0x31#8 }
    (State.create c).cfg.stop = 0x03#8 ∧ (State.create c).cfg.poly = 0x31#8 ∧
      (nextOf (exec .extPoll (State.create c))).map (fun t => t.x.res.complete) = some false := by
  decide

theorem test_reset_memories_canonical :
    Memory.wf (Memory.cells State.reset.ib) = true ∧ Memory.wf (Memory.cells State.reset.ob) = true := by
  decide

/-! ### Witnesses: a state and operands that meet a statement's hypotheses, clause by clause -/

theorem witness_PayloadChecksumFollowsTheLoop : ([] : List Byte) = [] ∧ [0x41#8] ≠ [] ∧ nine ≠ [] := by
  decide

theorem witness_CrcOperations_other_unit : CrcUnit.extractor ≠ CrcUnit.framer := by decide

theorem witness_ChecksumBitZeroIsClear : crcPayload [0x41#8] 0x87#8 = some 0x1E#8 := by decide +kernel

/-- The linearity check of 95_test_vectors.md section 2.3. -/
theorem witness_ChecksumIsLinear :
    hello.length = [0x49#8, 0x45#8, 0x4C#8, 0x4C#8, 0x4F#8].length ∧
      crcPayload hello 0x87#8 = some 0x36#8 ∧
      crcPayload [0x49#8, 0x45#8, 0x4C#8, 0x4C#8, 0x4F#8] 0x87#8 = some 0x50#8 := by decide +kernel

theorem witness_SingleBitFlipChangesChecksum :
    (([0x41#8] : List Byte).length ≤ 8 ∧ ([0x41#8] : List Byte)[0]? = some 0x41#8 ∧ 0 < 8) ∧
      eight.length ≤ 8 ∧ eight[7]? = some 0x38#8 ∧ 7 < 8 := by decide

theorem witness_DegeneratePolynomialsClearChecksums :
    hello ≠ [] ∧ ((0x00#8 : Byte) = 0x00#8 ∨ (0x00#8 : Byte) = 0x80#8) ∧
      ((0x80#8 : Byte) = 0x00#8 ∨ (0x80#8 : Byte) = 0x80#8) := by decide

/-- Room is met without a bound, and at a bound that the operation fills exactly. -/
theorem witness_FrmByteEmitsAndAdvances :
    SinkHasRoom State.reset (frameByteBytes State.reset 0x7B#8 true).length ∧
      SinkHasRoom (bounded 0 5 [] []) (frameByteBytes (bounded 0 5 [] []) 0x7B#8 true).length := by
  constructor
  · intro cap h; cases h
  · intro cap h; cases h; decide +kernel

theorem witness_FrmByteFeedsTheRemainder :
    ∃ t, exec (.frmByte 0x7B#8 true) State.reset = .next t := ⟨_, rfl⟩

theorem witness_FrmByteStopsAtFullSink :
    (bounded 0 4 [] []).cfg.obCap = some 4 ∧
      4 < (bounded 0 4 [] []).ob.length + (frameByteBytes (bounded 0 4 [] []) 0x7B#8 true).length := by
  decide +kernel

theorem witness_FrmEncodeIsItsFrmBytes : [0x42#8] ≠ ([] : List Byte) := by decide

theorem witness_FrmEncodeAppendsWholeFrames :
    nine ≠ [] ∧ State.reset.f.pos = 0 ∧
      SinkHasRoom State.reset ((Wire.blocks nine).flatMap (Wire.frame State.reset.cfg)).length ∧
      [0x41#8] ≠ ([] : List Byte) ∧ (bounded 0 4 [] []).f.pos = 0 ∧
      SinkHasRoom (bounded 0 4 [] [])
        ((Wire.blocks [0x41#8]).flatMap (Wire.frame (bounded 0 4 [] []).cfg)).length := by
  refine ⟨by decide, rfl, fun cap h => ?_, by decide, rfl, fun cap h => ?_⟩
  · cases h
  · cases h; decide +kernel

theorem witness_WireLengths :
    nine ≠ [] ∧ (1 ≤ ([0x7B#8] : List Byte).length ∧ ([0x7B#8] : List Byte).length ≤ 8) ∧
      1 ≤ eight.length ∧ eight.length ≤ 8 := by decide

/-- An unbounded buffer, one byte below the bound, and at the bound. -/
theorem witness_IbAppendAddsOneByte :
    (∀ cap, State.reset.cfg.ibCap = some cap → State.reset.ibLen < cap) ∧
      (∀ cap, (bounded 2 0 [0x7B#8] []).cfg.ibCap = some cap → (bounded 2 0 [0x7B#8] []).ibLen < cap) ∧
      (bounded 1 0 [0x7B#8] []).cfg.ibCap = some (bounded 1 0 [0x7B#8] []).ibLen ∧
      ∃ t, exec (.ibAppend 0x7B#8) State.reset = .next t := by
  refine ⟨fun cap h => ?_, fun cap h => ?_, rfl, _, rfl⟩
  · cases h
  · cases h; decide

theorem witness_OnlyTheExtractorRemovesFromIb :
    (∃ t, exec .extPoll (withIb helloFrame) = .next t ∧ IsExtractorOperation .extPoll) ∧
      (∃ t, exec .fEnd (scanning .frame 1 [0x7B#8] []) = .next t ∧ IsExtractorOperation .fEnd) ∧
      ∃ t, exec (.ibAppend 0x7B#8) State.reset = .next t ∧ ¬ IsExtractorOperation (.ibAppend 0x7B#8) := by
  refine ⟨⟨_, rfl, .inl rfl⟩, ⟨_, rfl, .inr ⟨.fEnd, rfl⟩⟩, _, rfl, ?_⟩
  rintro (h | ⟨sym, h⟩)
  · cases h
  · cases sym <;> cases h

theorem witness_WireTableDecodes :
    Config.default.tagsDistinct = true ∧ (0x7A#8 : Byte) ≠ Config.default.start ∧
      (0x7A#8 : Byte) ≠ Config.default.stop ∧ (0x7A#8 : Byte) ≠ Config.default.esc := by decide

theorem witness_SkipAndEscapeAdvance :
    ((scanning .hunt 0 [0x5C#8] []).x.st = .hunt ∧ (scanning .hunt 0 [0x5C#8] []).ibRead 0 = some 0x5C#8 ∧
        (0x5C#8 : Byte) ≠ (scanning .hunt 0 [0x5C#8] []).cfg.start) ∧
      (scanning .frame 1 [0x7B#8, 0x5C#8] []).x.st = .frame ∧
      (scanning .frame 1 [0x7B#8, 0x5C#8] []).ibRead 1 =
        some (scanning .frame 1 [0x7B#8, 0x5C#8] []).cfg.esc := by decide

theorem witness_LiteralsJoinTheAccumulation :
    ((scanning .frame 1 [0x7B#8, 0x7A#8] []).ibRead 1 = some 0x7A#8 ∧
        (scanning .frame 1 [0x7B#8, 0x7A#8] []).x.st = .frame ∧
        (scanning .frame 1 [0x7B#8, 0x7A#8] []).cfg.isTag 0x7A#8 = false) ∧
      (scanning .escd 2 [0x7B#8, 0x5C#8, 0x7D#8] []).ibRead 2 = some 0x7D#8 ∧
      (scanning .escd 2 [0x7B#8, 0x5C#8, 0x7D#8] []).x.st = .escd := by decide

/-- A literal with nothing held, a literal with a byte held at the eighth count, and both anchors. -/
theorem witness_LiteralsMoveTheHeldByte :
    (∃ t, exec (.fData 0x41#8) (scanning .frame 1 [0x7B#8, 0x41#8] []) = .next t ∧
        (scanning .frame 1 [0x7B#8, 0x41#8] []).x.hv = false) ∧
      (∃ s t, exec (.eLit 0x41#8) s = .next t ∧ s.x.hv = true ∧ s.x.cnt = 7) ∧
      (∃ s t, exec .hStart s = .next t) ∧ ∃ s t, exec .fStart s = .next t := by
  refine ⟨⟨_, rfl, rfl⟩, ⟨{ scanning .escd 2 [0x7B#8, 0x5C#8, 0x41#8] [0x42#8] with
    x := { (scanning .escd 2 [0x7B#8, 0x5C#8, 0x41#8] [0x42#8]).x with hv := true, cnt := 7 } },
    _, rfl, rfl, rfl⟩, ⟨scanning .hunt 0 [0x7B#8] [], _, rfl⟩,
    ⟨scanning .frame 1 [0x7B#8, 0x7B#8] [], _, rfl⟩⟩

theorem witness_StartTagsAnchorTheScan :
    ((scanning .hunt 1 [0x7D#8, 0x7B#8] []).ibRead 1 = some (scanning .hunt 1 [0x7D#8, 0x7B#8] []).cfg.start ∧
        (scanning .hunt 1 [0x7D#8, 0x7B#8] []).x.st = .hunt) ∧
      (scanning .frame 1 [0x7B#8, 0x7B#8] []).ibRead 1 =
        some (scanning .frame 1 [0x7B#8, 0x7B#8] []).cfg.start ∧
      (scanning .frame 1 [0x7B#8, 0x7B#8] []).x.st = .frame ∧
      (scanning .frame 1 [0x7B#8, 0x7B#8] []).cfg.tagsDistinct = true := by decide

theorem witness_OpenFrameEndsIncomplete :
    ((scanning .frame 1 [0x7B#8] []).x.cur = (scanning .frame 1 [0x7B#8] []).ibLen ∧
        (scanning .frame 1 [0x7B#8] []).x.st = .frame) ∧
      (scanning .escd 2 [0x7B#8, 0x5C#8] []).x.cur = (scanning .escd 2 [0x7B#8, 0x5C#8] []).ibLen ∧
      (scanning .escd 2 [0x7B#8, 0x5C#8] []).x.st = .escd := by decide

/-- With garbage, and with an empty buffer. -/
theorem witness_HuntEndDropsTheGarbage :
    ((scanning .hunt 1 [0x7D#8] []).x.st = .hunt ∧
        (scanning .hunt 1 [0x7D#8] []).x.cur = (scanning .hunt 1 [0x7D#8] []).ibLen) ∧
      (scanning .hunt 0 [] []).x.st = .hunt ∧
      (scanning .hunt 0 [] []).x.cur = (scanning .hunt 0 [] []).ibLen := by decide

/-- A matching and a differing received remainder. -/
theorem witness_StopTagReturnsThePayload :
    ((scanning .frame 1 [0x7B#8, 0x7D#8] [0x41#8, 0x1E#8]).x.st = .frame ∧
        (scanning .frame 1 [0x7B#8, 0x7D#8] [0x41#8, 0x1E#8]).ibRead 1 = some Config.default.stop ∧
        (scanning .frame 1 [0x7B#8, 0x7D#8] [0x41#8, 0x1E#8]).cfg.tagsDistinct = true ∧
        (scanning .frame 1 [0x7B#8, 0x7D#8] [0x41#8, 0x1E#8]).x.acc = [0x41#8] ++ [0x1E#8]) ∧
      (scanning .frame 1 [0x7B#8, 0x7D#8] [0x41#8, 0x1F#8]).x.acc = [0x41#8] ++ [0x1F#8] ∧
      crcPayload [0x41#8] Config.default.poly = some 0x1E#8 := by decide +kernel

/-- No literal, and one. -/
theorem witness_StopTagOfShortFrame :
    ((scanning .frame 1 [0x7B#8, 0x7D#8] []).x.st = .frame ∧
        (scanning .frame 1 [0x7B#8, 0x7D#8] []).ibRead 1 = some Config.default.stop ∧
        (scanning .frame 1 [0x7B#8, 0x7D#8] []).cfg.tagsDistinct = true ∧
        (scanning .frame 1 [0x7B#8, 0x7D#8] []).x.acc.length ≤ 1) ∧
      (scanning .frame 1 [0x7B#8, 0x7D#8] [0x5A#8]).x.acc.length ≤ 1 := by decide

/-- Each of the four ends. -/
theorem witness_EndOfPollKeepsTheScratch :
    (∃ t, exec .hEnd (scanning .hunt 1 [0x7D#8] []) = .next t) ∧
      (∃ t, exec .fStop (scanning .frame 1 [0x7B#8, 0x7D#8] []) = .next t) ∧
      (∃ t, exec .fEnd (scanning .frame 1 [0x7B#8] []) = .next t) ∧
      ∃ t, exec .eEnd (scanning .escd 2 [0x7B#8, 0x5C#8] []) = .next t :=
  ⟨⟨_, rfl⟩, ⟨_, rfl⟩, ⟨_, rfl⟩, _, rfl⟩

/-- Inside IB and at its end. -/
theorem witness_ExactlyOneSymbolRuns :
    (scanning .escd 1 [0x7B#8, 0x5C#8] []).x.cur ≤ (scanning .escd 1 [0x7B#8, 0x5C#8] []).ibLen ∧
      (scanning .hunt 0 [] []).x.cur ≤ (scanning .hunt 0 [] []).ibLen ∧
      Symbol.hStart ≠ Symbol.hEnd := by decide

theorem witness_PollIsTheRunOfItsSymbols : (withIb helloFrame).cfg.tagsDistinct = true := by decide

theorem witness_ResetStateIsFresh :
    Config.default.tagsDistinct = true ∧
      ({ Config.default with start := 0x02#8, stop := 0x03#8, esc := 0x10#8 } : Config).tagsDistinct =
        true := by decide

/-- A poll answers a next state: the one hypothesis of the statements about every poll
(PollReportsInvalidFrames, PollEventsInScanOrder, PollRemovesOnlyConfirmedBytes,
PollLearnsOnlyBufferAndConfiguration), with each ending. -/
theorem witness_polls_answer :
    (∃ t, exec .extPoll (withIb (0x7D#8 :: helloFrame)) = .next t ∧ t.x.res.complete = true ∧
        t.x.res.valid = true) ∧
      (∃ t, exec .extPoll (withIb [0x7B#8, 0x7D#8]) = .next t ∧ t.x.res.complete = true ∧
        t.x.res.valid = false ∧ t.x.res.payload = []) ∧
      (∃ t, exec .extPoll (withIb [0x7B#8, 0x41#8, 0x1F#8, 0x7D#8]) = .next t ∧
        t.x.res.complete = true ∧ t.x.res.valid = false ∧ t.x.res.payload = [0x41#8]) ∧
      ∃ t, exec .extPoll (withIb []) = .next t ∧ t.x.res.complete = false := by
  refine ⟨⟨_, rfl, ?_⟩, ⟨_, rfl, ?_⟩, ⟨_, rfl, ?_⟩, _, rfl, ?_⟩ <;> decide +kernel

/-- With a sink (the polls above), and without one. -/
theorem witness_PollWithoutSinkReportsNothing :
    (withIb [0x7B#8, 0x7D#8]).cfg.diagSink = true ∧
      (configured { Config.default with diagSink := false } [0x7B#8, 0x7D#8]).cfg.diagSink = false ∧
      ∃ t, exec .extPoll (configured { Config.default with diagSink := false } [0x7B#8, 0x7D#8]) =
        .next t := ⟨rfl, rfl, _, rfl⟩

theorem witness_PollLearnsOnlyBufferAndConfiguration :
    (withIb [0x7B#8]).cfg = (scanning .escd 0 [0x7B#8] [0x41#8]).cfg ∧
      (withIb [0x7B#8]).ib = (scanning .escd 0 [0x7B#8] [0x41#8]).ib ∧
      withIb [0x7B#8] ≠ scanning .escd 0 [0x7B#8] [0x41#8] ∧
      (∃ t, exec .extPoll (withIb [0x7B#8]) = .next t) ∧
      ∃ t, exec .extPoll (scanning .escd 0 [0x7B#8] [0x41#8]) = .next t :=
  ⟨rfl, rfl, by decide, ⟨_, rfl⟩, _, rfl⟩

/-- An incomplete poll, for IncompletePollRepeats and IncompletePollLosesNothing. -/
theorem witness_incomplete_poll :
    ∃ t, exec .extPoll (withIb [0x7D#8, 0x7B#8, 0x41#8, 0x5C#8]) = .next t ∧
      t.x.res.complete = false := ⟨_, rfl, by decide +kernel⟩

theorem witness_GarbageBeforeAStartTagIsIgnored :
    (withIb helloFrame).cfg.start ∉ [0x78#8, 0x79#8, 0x7D#8, 0x5C#8] := by decide

/-- No item, one item, and the escaped items of vector V18a. -/
theorem witness_PollReadsAnyItems :
    (withIb [0x7B#8, 0x7D#8]).cfg.tagsDistinct = true ∧
      (withIb [0x7B#8, 0x7D#8]).ib = 0x7B#8 :: (Wire.anyItems Config.default [] ++ 0x7D#8 :: []) ∧
      (withIb [0x7B#8, 0x5C#8, 0x7D#8, 0x7D#8]).ib =
        0x7B#8 :: (Wire.anyItems Config.default [(true, 0x7D#8)] ++ 0x7D#8 :: []) ∧
      (withIb [0x7B#8, 0x41#8, 0x5C#8, 0x1E#8, 0x7D#8]).ib =
        0x7B#8 :: (Wire.anyItems Config.default ([(false, 0x41#8)] ++ [(true, 0x1E#8)]) ++ 0x7D#8 :: []) ∧
      ∀ e ∈ [(false, 0x41#8), (true, 0x1E#8)], e.1 = false → Config.default.isTag e.2 = false := by
  decide +kernel

theorem witness_FramedBlockComesBackValid :
    (withIb (helloFrame ++ [0x5C#8])).cfg.tagsDistinct = true ∧ hello.length ≤ 8 ∧
      crcPayload hello Config.default.poly = some 0x36#8 ∧ Config.default.isTag 0x36#8 = false ∧
      (withIb (helloFrame ++ [0x5C#8])).ib = Wire.frame Config.default hello ++ [0x5C#8] := by
  decide +kernel

/-- Vectors V4 and V28: nine bytes, two frames. -/
theorem witness_EncodedPayloadComesBack :
    ∃ t, State.reset.cfg.tagsDistinct = true ∧ State.reset.f.pos = 0 ∧ State.reset.ob = [] ∧
      nine ≠ [] ∧ exec (.frmEncode nine) State.reset = .next t ∧
      (∀ b ∈ Wire.blocks nine, ∀ c, crcPayload b State.reset.cfg.poly = some c →
        State.reset.cfg.isTag c = false) ∧
      (withIb t.ob).cfg = State.reset.cfg ∧ (withIb t.ob).ib = t.ob := by
  have hx : fits (frameAll State.reset nine).cfg.obCap (frameAll State.reset nine).ob.length = true := by
    decide +kernel
  have hn : exec (.frmEncode nine) State.reset = .next (frameAll State.reset nine) := by
    show execFrmEncode nine State.reset = _
    unfold execFrmEncode
    rw [if_neg (by decide)]
    exact withinSink_eq_next.2 ⟨rfl, hx⟩
  have hi : ∀ o, (withIb o).cfg = State.reset.cfg ∧ (withIb o).ib = o := fun _ => ⟨rfl, rfl⟩
  refine ⟨frameAll State.reset nine, by decide, rfl, rfl, by decide, hn, ?_, hi _⟩
  have hb : Wire.blocks nine = [nine.take 8, [0x49#8]] := by decide +kernel
  have h1 : crcPayload (nine.take 8) State.reset.cfg.poly = some 0x7A#8 := by decide +kernel
  have h2 : crcPayload [0x49#8] State.reset.cfg.poly = some 0xD2#8 := by decide +kernel
  intro b h c hc
  rw [hb] at h
  rcases List.mem_pair.1 h with rfl | rfl
  · rw [h1] at hc; cases hc; decide
  · rw [h2] at hc; cases hc; decide

/-- Vectors V19, V20, V39 and V41: a checksum equal to the escape tag, alone in the buffer and before
another frame (without and with an item between), to the stop tag and to the start tag. -/
theorem witness_ChecksumEqualToATag :
    (crcPayload [0x00#8, 0x60#8] Config.default.poly = some Config.default.esc ∧
        (withIb [0x7B#8, 0x00#8, 0x60#8, 0x5C#8, 0x7D#8]).ib =
          Wire.frame Config.default [0x00#8, 0x60#8] ++ Wire.anyItems Config.default []) ∧
      ((withIb ([0x7B#8, 0x00#8, 0x60#8, 0x5C#8, 0x7D#8] ++ helloFrame)).ib =
          Wire.frame Config.default [0x00#8, 0x60#8] ++ Wire.anyItems Config.default [] ++
            Config.default.start :: helloFrame.tail ∧
        (withIb ([0x7B#8, 0x00#8, 0x60#8, 0x5C#8, 0x7D#8, 0x41#8] ++ helloFrame)).ib =
          Wire.frame Config.default [0x00#8, 0x60#8] ++
            Wire.anyItems Config.default [(false, 0x41#8)] ++
            Config.default.start :: helloFrame.tail ∧
        Config.default.isTag 0x41#8 = false) ∧
      (∃ s : State, s.cfg.tagsDistinct = true ∧
        crcPayload [0x47#8, 0x42#8] s.cfg.poly = some s.cfg.stop ∧
        s.ib = Wire.frame s.cfg [0x47#8, 0x42#8] ++ [0x11#8]) ∧
      ∃ s : State, s.cfg.tagsDistinct = true ∧
        crcPayload [0x42#8, 0x49#8] s.cfg.poly = some s.cfg.start ∧
        s.ib = Wire.frame s.cfg [0x42#8, 0x49#8] ++ [] := by
  refine ⟨by decide +kernel, by decide +kernel,
    ⟨configured { Config.default with stop := 0x7E#8 } [0x7B#8, 0x47#8, 0x42#8, 0x7E#8, 0x7E#8, 0x11#8], ?_⟩,
    configured { Config.default with start := 0x7A#8 } [0x7A#8, 0x42#8, 0x49#8, 0x7A#8, 0x7D#8], ?_⟩ <;>
    decide +kernel

theorem witness_ChecksumEqualToATag_items :
    Wire.ItemsOk Config.default [] ∧ Wire.ItemsOk Config.default [(false, 0x41#8)] := by
  refine ⟨Wire.itemsOk_nil _, fun e h _ => ?_⟩
  cases List.mem_singleton.1 h
  decide

/-- Vector V32: bit 0 of the first byte of "HELLO" flipped. -/
theorem witness_SingleBitFlipIsFlagged :
    Config.default.tagsDistinct = true ∧ Config.default.poly = 0x87#8 ∧ hello.length ≤ 8 ∧
      hello[0]? = some 0x48#8 ∧ Config.default.isTag 0x48#8 = false ∧
      Config.default.isTag (0x48#8 ^^^ (1#8 <<< 0)) = false ∧
      crcPayload hello Config.default.poly = some 0x36#8 ∧ Config.default.isTag 0x36#8 = false ∧
      (withIb [0x7B#8, 0x49#8, 0x45#8, 0x4C#8, 0x4C#8, 0x4F#8, 0x36#8, 0x7D#8]).ib =
        Config.default.start ::
          (Wire.block Config.default (hello.set 0 (0x48#8 ^^^ (1#8 <<< 0))) ++
            0x36#8 :: Config.default.stop :: []) := by decide +kernel

theorem witness_RegisterFormComputesTheResult :
    ∃ t, exec .extPoll (withIb helloFrame) = .next t ∧ t.x.res.complete = true :=
  ⟨_, rfl, by decide +kernel⟩

theorem witness_StepPerformsTheNextCall :
    (calling [{ port := .frmByte, bytes := [0x48#8, 0x01#8] }]).cfg.tagsDistinct = true ∧
      (calling [{ port := .frmByte, bytes := [0x48#8, 0x01#8] }]).x.busy = false ∧
      decode Config.default (.call .frmByte) [0x48#8, 0x01#8] = .ok (.frmByte 0x48#8 true) := by decide

theorem witness_StepRunsTheSymbolAtTheCursor :
    (scanning .frame 1 [0x7B#8, 0x7D#8] []).cfg.tagsDistinct = true ∧
      (scanning .frame 1 [0x7B#8, 0x7D#8] []).x.busy = true ∧
      (scanning .frame 1 [0x7B#8, 0x7D#8] []).ibRead 1 = some 0x7D#8 ∧
      decode Config.default (.wire .frame) [0x7D#8, 0x00#8] = .ok .fStop ∧
      (scanning .frame 1 [0x7B#8] []).x.cur = (scanning .frame 1 [0x7B#8] []).ibLen ∧
      decode Config.default (.wire .frame) [0x7D#8, 0x01#8] = .ok .fEnd := by decide

theorem witness_IdleStepChangesNothing :
    State.reset.cfg.tagsDistinct = true ∧ State.reset.x.busy = false ∧ State.reset.agenda = [] := by
  decide

theorem witness_EqualTagsAreRefused :
    (configured { Config.default with stop := 0x7B#8 } []).cfg.start =
        (configured { Config.default with stop := 0x7B#8 } []).cfg.stop ∧
      (configured { Config.default with esc := 0x7B#8 } []).cfg.start =
        (configured { Config.default with esc := 0x7B#8 } []).cfg.esc ∧
      (configured { Config.default with esc := 0x7D#8 } []).cfg.stop =
        (configured { Config.default with esc := 0x7D#8 } []).cfg.esc := by decide

theorem reset_scanInv : ScanInv State.reset := fun h => by cases h

theorem witness_NothingStopsTheMachine :
    (calling [{ port := .extPoll, bytes := [] }]).cfg.tagsDistinct = true ∧
      (calling [{ port := .extPoll, bytes := [] }]).cfg.ibCap = none ∧
      (calling [{ port := .extPoll, bytes := [] }]).cfg.obCap = none ∧
      ScanInv (calling [{ port := .extPoll, bytes := [] }]) ∧
      ∀ c ∈ (calling [{ port := .extPoll, bytes := [] }]).agenda,
        ∃ i, decode Config.default (.call c.port) c.bytes = .ok i := by
  refine ⟨by decide, rfl, rfl, nofun, fun c hc => ?_⟩
  cases List.mem_singleton.1 hc
  exact ⟨.extPoll, rfl⟩

/-- A scan under way that is in order, and a step of it (StepKeepsTheScanInOrder,
NothingStopsTheMachine). -/
theorem witness_StepKeepsTheScanInOrder :
    ∃ t, ScanInv (scanning .frame 1 [0x7B#8, 0x41#8] []) ∧
      (scanning .frame 1 [0x7B#8, 0x41#8] []).x.busy = true ∧
      step (scanning .frame 1 [0x7B#8, 0x41#8] []) = .next t := by
  refine ⟨_, fun _ => ⟨by decide, nofun, fun _ => by decide, ?_⟩, rfl, rfl⟩
  exact ⟨fun _ => ⟨rfl, rfl⟩, nofun, rfl, rfl, nofun⟩

/-- An open block of one byte in OB, and a step that adds to it. -/
theorem witness_StepKeepsObWellFramed :
    ∃ s t, FramerInv s ∧ s.f.pos = 1 ∧ step s = .next t := by
  refine ⟨{ calling [{ port := .frmByte, bytes := [0x42#8, 0x00#8] }] with
    f := { crc := 0xDD#8, pos := 1 }, ob := [0x7B#8, 0x41#8] }, _, ?_, rfl, rfl⟩
  refine ⟨[], [0x41#8], by simp, rfl, by decide, fun b rest h => ?_⟩
  cases h
  decide +kernel

theorem witness_StepKeepsTheCapacities :
    ∃ t, WithinCapacity (bounded 0 0 [] []) ∧ step (bounded 0 0 [] []) = .next t := by
  refine ⟨_, ⟨fun cap h => ?_, fun cap h => ?_⟩, rfl⟩ <;> exact Nat.zero_le _

theorem witness_StepKeepsTheResultCoded :
    ∃ t, ResultOk State.reset.x.res ∧ step State.reset = .next t := ⟨_, fun _ => ⟨rfl, rfl⟩, rfl⟩

theorem witness_ConfigurationIsNeverWritten :
    (∃ t, exec (.frmByte 0x41#8 true) State.reset = .next t) ∧ ∃ t, step State.reset = .next t :=
  ⟨⟨_, rfl⟩, _, rfl⟩

theorem witness_ObOnlyGrowsAndIsNeverRead :
    ∃ t, State.reset.cfg.obCap = none ∧ exec (.frmByte 0x41#8 true) State.reset = .next t :=
  ⟨_, rfl, rfl⟩

theorem witness_DecodeOfEncodeIsTheInstruction :
    Config.default.tagsDistinct = true ∧ (Instr.hSkip 0x7C#8).wellFormed Config.default = true ∧
      encode Config.default (.hSkip 0x7C#8) = some (.wire .hunt, [0x7C#8, 0x00#8]) ∧
      encode Config.default (.crcDrain .framer) = none := by decide

theorem witness_CallWordsDecode : [0x41#8] ≠ ([] : List Byte) := by decide

end Sys2Proof.Tests
end

/-! ## The scope of the model (00_scope.md) -/

namespace Sys2Proof.Config

/-- The check of 00_scope.md R4 fails exactly where two of the three tags coincide. -/
theorem tagsDistinct_eq_false_iff (c : Config) :
    c.tagsDistinct = false ↔ c.start = c.stop ∨ c.start = c.esc ∨ c.stop = c.esc := by
  simp only [tagsDistinct, Bool.and_eq_false_iff, bne_eq_false_iff_eq, or_assoc]

end Sys2Proof.Config

namespace Sys2Proof.Machine

/-- Where the tags are not distinct, `fetch` looks neither at the scan nor at the agenda. -/
theorem fetch_of_tagsDistinct_eq_false {s : State} (h : s.cfg.tagsDistinct = false) :
    fetch s = .stop .tagsNotDistinct := by
  simp [fetch, h]

/-- What `fetch` stops at is the step's refusal. -/
theorem step_of_fetch_stop {s : State} {r : Refusal} (h : fetch s = .stop r) :
    step s = .refused r := by
  simp [step, h]

end Sys2Proof.Machine

namespace Sys2Proof.Proofs

open Sys2Proof.Machine

/-- Settles O48: the check of R4 fails, so `fetch` stops whatever is invoked. -/
theorem equalTagsAreRefused : Obligations.EqualTagsAreRefused := by
  intro s hequal
  have hcheck : s.cfg.tagsDistinct = false := s.cfg.tagsDistinct_eq_false_iff.mpr hequal
  exact step_of_fetch_stop (fetch_of_tagsDistinct_eq_false hcheck)

end Sys2Proof.Proofs

/-! ## The inbound buffer (20_memory.md) -/

namespace Sys2Proof.Machine

/-- From `s` to `t` IB lost bytes at its front and nothing else happened to it (20_memory.md R53,
R55): the relation that every action of the Extractor keeps. -/
def IbFrontDropped (s t : State) : Prop := ∃ n, n ≤ s.ibLen ∧ t.ib = s.ib.drop n

theorem IbFrontDropped.of_ib_eq {s t : State} (h : t.ib = s.ib) : IbFrontDropped s t :=
  ⟨0, Nat.zero_le _, h⟩

/-- Two removals at the front are one. -/
theorem IbFrontDropped.trans {s t u : State} (hst : IbFrontDropped s t) (htu : IbFrontDropped t u) :
    IbFrontDropped s u := by
  obtain ⟨m, hm, ht⟩ := hst
  obtain ⟨n, hn, hu⟩ := htu
  have hlen : t.ibLen = s.ibLen - m := by simp [State.ibLen, ht]
  exact ⟨m + n, by omega, by rw [hu, ht, List.drop_drop]⟩

theorem symbolAction_ibFrontDropped {s : State} {sym : Symbol} (hs : symbolAt s = some sym) :
    IbFrontDropped s (symbolAction sym s) := by
  obtain ⟨-, -, -, -, hib⟩ := symbolAction_frame hs
  exact hib

theorem scanStep_ibFrontDropped (s : State) : IbFrontDropped s (scanStep s) := by
  cases hs : symbolAt s with
  | none => exact .of_ib_eq (by simp [scanStep, hs])
  | some sym => rw [scanStep_of_symbol s hs]; exact symbolAction_ibFrontDropped hs

theorem scanLoop_ibFrontDropped (n : Nat) (s : State) : IbFrontDropped s (scanLoop n s) := by
  induction n generalizing s with
  | zero => exact .of_ib_eq rfl
  | succ n ih =>
    cases hb : s.x.busy with
    | false => rw [scanLoop_done s _ hb]; exact .of_ib_eq rfl
    | true => rw [scanLoop_busy s n hb]; exact (scanStep_ibFrontDropped s).trans (ih _)

/-- The scan initialisation of 41_extractor.md R121 touches no byte, so the poll removes what its
loop removes. -/
theorem poll_ibFrontDropped (s : State) : IbFrontDropped s (poll s) :=
  have hbegin : IbFrontDropped s (beginScan s) := .of_ib_eq rfl
  hbegin.trans (scanLoop_ibFrontDropped _ _)

theorem exec_ibFrontDropped {i : Instr} {s t : State} (hi : Safety.IsExtractorOperation i)
    (h : exec i s = .next t) : IbFrontDropped s t := by
  rcases hi with rfl | ⟨sym, rfl⟩
  · obtain rfl := exec_extPoll_next h
    exact poll_ibFrontDropped s
  · obtain ⟨hs, rfl⟩ := exec_symbol_eq_next.1 h
    exact symbolAction_ibFrontDropped hs

/-- Outside the Extractor only `IB.APPEND` touches IB (20_memory.md R54, R55). -/
theorem exec_ib_of_not_extractor {i : Instr} {s t : State} (hi : ¬ Safety.IsExtractorOperation i)
    (h : exec i s = .next t) : t.ib = s.ib ∨ ∃ b, i = .ibAppend b ∧ t.ib = s.ib ++ [b] := by
  rcases instr_cases i with ⟨sym, rfl⟩ | ⟨data, last, rfl⟩ | ⟨p, rfl⟩ | rfl | ⟨b, rfl⟩ |
    ⟨u, bit, rfl⟩ | ⟨u, v, rfl⟩ | ⟨u, rfl⟩ | ⟨u, v, rfl⟩
  · exact absurd (.inr ⟨sym, rfl⟩) hi
  · obtain rfl := exec_frmByte_next h
    exact .inl (frameByte_ib s data last)
  · obtain ⟨-, rfl⟩ := exec_frmEncode_next h
    obtain ⟨-, -, hib, -, -⟩ := frameAll_frame s p
    exact .inl hib
  · exact absurd (.inl rfl) hi
  · obtain ⟨rfl, -⟩ := exec_ibAppend_next h
    exact .inr ⟨b, rfl, State.ibAppend_ib s b⟩
  all_goals
    cases h
    exact .inl (State.setCrcReg_ib s _ _)

/-- `IB.APPEND` below the capacity completes (20_memory.md R54). -/
theorem exec_ibAppend_of_room {s : State} (b : Byte)
    (h : ∀ cap, s.cfg.ibCap = some cap → s.ibLen < cap) :
    exec (.ibAppend b) s = .next (s.ibAppend b) :=
  if_pos ((fits_iff _ _).2 h)

/-- `IB.APPEND` at the capacity is refused (20_memory.md R54). -/
theorem exec_ibAppend_of_full {s : State} (b : Byte) (h : s.cfg.ibCap = some s.ibLen) :
    exec (.ibAppend b) s = .refused .inboundBufferFull :=
  if_neg (by simp [h])

end Sys2Proof.Machine

namespace Sys2Proof.Proofs

open Sys2Proof.Machine Sys2Proof.Safety

/-- Settles O17: every symbol's action drops a prefix of IB, drops compose along a poll's loop, and
outside the Extractor IB is written by `IB.APPEND` alone. -/
theorem onlyTheExtractorRemovesFromIb : Obligations.OnlyTheExtractorRemovesFromIb :=
  fun _ _ _ h => ⟨fun hi => exec_ibFrontDropped hi h, fun hi => exec_ib_of_not_extractor hi h⟩

/-- Settles O16: the capacity test of `IB.APPEND` decides between the one append and the refusal, and
that no other operation adds a byte is the case distinction of O17. -/
theorem ibAppendAddsOneByte : Obligations.IbAppendAddsOneByte := by
  refine ⟨fun s b hroom => ?_, fun s b hfull => exec_ibAppend_of_full b hfull, fun i s t h => ?_⟩
  · exact ⟨s.ibAppend b, exec_ibAppend_of_room b hroom, rfl,
      fun _ ha => s.ibRead_ibAppend_old ha b, s.ibRead_ibAppend_new b, rfl, rfl,
      ⟨rfl, fun _ => rfl⟩, rfl, rfl⟩
  · obtain ⟨hextractor, hother⟩ := onlyTheExtractorRemovesFromIb i s t h
    by_cases hi : IsExtractorOperation i
    · obtain ⟨n, -, hdrop⟩ := hextractor hi
      exact .inr ⟨n, hdrop⟩
    · rcases hother hi with hsame | happend
      · exact .inr ⟨0, hsame⟩
      · exact .inl happend

end Sys2Proof.Proofs

/-! ## The wire symbols (30_encoding.md R80) -/

namespace Sys2Proof.Config

/-- The three inequalities that distinct tags stand for (00_scope.md R4). -/
theorem tagsDistinct_iff (c : Config) :
    c.tagsDistinct = true ↔ c.start ≠ c.stop ∧ c.start ≠ c.esc ∧ c.stop ≠ c.esc := by
  rw [← Bool.not_eq_false, c.tagsDistinct_eq_false_iff, not_or, not_or]

end Sys2Proof.Config

namespace Sys2Proof

variable (c : Config) {b : Byte}

@[simp] theorem decodeSymbol_hunt_start : decodeSymbol c .hunt (some c.start) = .hStart := if_pos rfl

theorem decodeSymbol_hunt_of_ne_start (hstart : b ≠ c.start) :
    decodeSymbol c .hunt (some b) = .hSkip b := if_neg hstart

@[simp] theorem decodeSymbol_hunt_end : decodeSymbol c .hunt none = .hEnd := rfl

@[simp] theorem decodeSymbol_frame_esc : decodeSymbol c .frame (some c.esc) = .fEsc := if_pos rfl

/-- The decoder tests for ESC first, so STOP has its own row only where the two differ. -/
theorem decodeSymbol_frame_stop (hesc : c.stop ≠ c.esc) :
    decodeSymbol c .frame (some c.stop) = .fStop :=
  (if_neg hesc).trans (if_pos rfl)

/-- The decoder tests for START last, so START has its own row only where it differs from both. -/
theorem decodeSymbol_frame_start (hstop : c.start ≠ c.stop) (hesc : c.start ≠ c.esc) :
    decodeSymbol c .frame (some c.start) = .fStart :=
  (if_neg hesc).trans ((if_neg hstop).trans (if_pos rfl))

theorem decodeSymbol_frame_of_ne_tags (hstart : b ≠ c.start) (hstop : b ≠ c.stop)
    (hesc : b ≠ c.esc) : decodeSymbol c .frame (some b) = .fData b :=
  (if_neg hesc).trans ((if_neg hstop).trans (if_neg hstart))

@[simp] theorem decodeSymbol_frame_end : decodeSymbol c .frame none = .fEnd := rfl

@[simp] theorem decodeSymbol_escd_byte (b : Byte) : decodeSymbol c .escd (some b) = .eLit b := rfl

@[simp] theorem decodeSymbol_escd_end : decodeSymbol c .escd none = .eEnd := rfl

end Sys2Proof

namespace Sys2Proof.Proofs

/-- Settles O18, one lemma per row: the distinct tags are used only in the rows of STOP and START in
`FRAME`, where the decoder's earlier tests must fail. -/
theorem wireTableDecodes : Obligations.WireTableDecodes := by
  intro c hdistinct
  obtain ⟨hstartStop, hstartEsc, hstopEsc⟩ := c.tagsDistinct_iff.mp hdistinct
  exact ⟨decodeSymbol_hunt_start c,
    fun _ hstart => decodeSymbol_hunt_of_ne_start c hstart,
    decodeSymbol_hunt_end c,
    decodeSymbol_frame_esc c,
    decodeSymbol_frame_stop c hstopEsc,
    decodeSymbol_frame_start c hstartStop hstartEsc,
    fun _ hstart hstop hesc => decodeSymbol_frame_of_ne_tags c hstart hstop hesc,
    decodeSymbol_frame_end c,
    decodeSymbol_escd_byte c,
    decodeSymbol_escd_end c⟩

end Sys2Proof.Proofs

/-! ## One byte through the Framer (40_framer.md section 2) -/

namespace Sys2Proof.Config

theorem isTag_iff (c : Config) (b : Byte) : c.isTag b = true ↔ b = c.start ∨ b = c.stop ∨ b = c.esc := by
  simp only [isTag, Bool.or_eq_true, beq_iff_eq, or_assoc]

end Sys2Proof.Config

namespace Sys2Proof.Machine

open Sys2Proof.Safety

/-- The sink holds a state that differs by so many bytes exactly where there was room for them
(20_memory.md R57). -/
theorem fits_obCap_iff_sinkHasRoom {s t : State} {bytes : List Byte} (hcfg : t.cfg = s.cfg)
    (hob : t.ob = s.ob ++ bytes) :
    fits t.cfg.obCap t.ob.length = true ↔ SinkHasRoom s bytes.length := by
  rw [fits_iff, hcfg, hob, List.length_append, SinkHasRoom]

/-- With bytes added at the end, the earlier offsets of OB read as before (20_memory.md R57). -/
theorem obRead_of_ob_eq_append {s t : State} {bytes : List Byte} (hob : t.ob = s.ob ++ bytes) {a : Nat}
    (ha : a < s.ob.length) : t.obRead a = s.obRead a := by
  rw [State.obRead, State.obRead, hob, List.getElem?_append_left ha]

/-- `FRM.BYTE` completes wherever the sink has room for its bytes (40_framer.md R102). -/
theorem exec_frmByte_of_room {s : State} {data : Byte} {last : Bool}
    (hroom : SinkHasRoom s (frameByteBytes s data last).length) :
    exec (.frmByte data last) s = .next (frameByte s data last) :=
  withinSink_eq_next.mpr
    ⟨rfl, (fits_obCap_iff_sinkHasRoom (frameByte_cfg s data last) (frameByte_ob s data last)).mpr hroom⟩

/-- The checksum that a closing `FRM.BYTE` emits is the remainder it leaves (40_framer.md R107). -/
theorem frameByteBytes_eq (s : State) (data : Byte) (last : Bool) :
    frameByteBytes s data last =
      (if s.f.pos = 0 then [s.cfg.start] else []) ++
        (if data = s.cfg.start ∨ data = s.cfg.stop ∨ data = s.cfg.esc then [s.cfg.esc] else []) ++
        [data] ++
        (if s.f.pos = 7 ∨ last = true then [(frameByte s data last).f.crc, s.cfg.stop] else []) := by
  simp only [frameByteBytes, s.cfg.isTag_iff data]
  by_cases hclose : s.f.pos = 7 ∨ last = true
  · rw [frameByte_crc, if_pos hclose, if_pos hclose, if_pos hclose]
  · rw [if_neg hclose, if_neg hclose]

/-- The position counts up without wrapping, since a block closes at position 7 (40_framer.md R108). -/
theorem frameByte_pos_val (s : State) (data : Byte) (last : Bool) :
    (frameByte s data last).f.pos.val = if s.f.pos = 7 ∨ last = true then 0 else s.f.pos.val + 1 := by
  rw [frameByte_pos]
  by_cases hclose : s.f.pos = 7 ∨ last = true
  · rw [if_pos hclose, if_pos hclose]
    rfl
  · rw [if_neg hclose, if_neg hclose]
    have hbelow : s.f.pos < Fin.last 7 := Fin.lt_last_iff_ne_last.mpr fun h => hclose (.inl h)
    exact Fin.val_add_one_of_lt hbelow

theorem frameByte_extractorSideUnchanged (s : State) (data : Byte) (last : Bool) :
    ExtractorSideUnchanged s (frameByte s data last) :=
  ⟨frameByte_x s data last, frameByte_diag s data last, fun _ => by
    rw [State.ibRead, State.ibRead, frameByte_ib]⟩

theorem frameByte_setUpUnchanged (s : State) (data : Byte) (last : Bool) :
    SetUpUnchanged s (frameByte s data last) :=
  ⟨frameByte_cfg s data last, frameByte_agenda s data last⟩

end Sys2Proof.Machine

namespace Sys2Proof.Proofs

open Sys2Proof.Machine Sys2Proof.Safety

/-- Settles O9: with room the operation answers `frameByte`, whose bytes, position and frame are the
lemmas above; only the checksum's bytes need the state after the operation. -/
theorem frmByteEmitsAndAdvances : Obligations.FrmByteEmitsAndAdvances := by
  intro s data last hroom
  have hob : (frameByte s data last).ob = s.ob ++ frameByteBytes s data last := frameByte_ob s data last
  refine ⟨frameByte s data last, exec_frmByte_of_room hroom, ?_,
    fun _ ha => obRead_of_ob_eq_append hob ha, frameByte_pos_val s data last,
    frameByte_extractorSideUnchanged s data last, frameByte_setUpUnchanged s data last⟩
  rw [hob, frameByteBytes_eq]
  simp only [List.append_assoc]

end Sys2Proof.Proofs

/-! ## The Extractor's symbols and the reports of a poll (41_extractor.md) -/

namespace Sys2Proof.Config

theorem isTag_eq_false_iff (c : Config) {b : Byte} :
    c.isTag b = false ↔ b ≠ c.start ∧ b ≠ c.stop ∧ b ≠ c.esc := by
  rw [← Bool.not_eq_true, c.isTag_iff, not_or, not_or]

end Sys2Proof.Config

namespace Sys2Proof.Machine

open Sys2Proof.Safety

/-- The same bytes read the same at every offset. -/
theorem ibUnchanged_of_ib_eq {s t : State} (hib : t.ib = s.ib) : IbUnchanged s t := fun _ => by
  rw [State.ibRead, State.ibRead, hib]

/-- With bytes gone at the front, the others are read at offsets lower by their number (20_memory.md
R53). -/
theorem ibRead_of_ib_eq_drop {s t : State} {n : Nat} (hib : t.ib = s.ib.drop n) (a : Nat) :
    t.ibRead a = s.ibRead (n + a) := by
  rw [State.ibRead, State.ibRead, hib, List.getElem?_drop]

section Symbol

variable {s : State} {sym : Symbol} (hs : symbolAt s = some sym)
include hs

/-- The symbol at the cursor completes with its action (41_extractor.md R122). -/
theorem exec_of_symbolAt : exec sym.instr s = .next (symbolAction sym s) :=
  exec_symbol_eq_next.mpr ⟨hs, rfl⟩

/-- No symbol touches the Framer, OB, the configuration or the calls to come (60_exceptions.md R193). -/
theorem symbolAction_othersUnchanged :
    FramerSideUnchanged s (symbolAction sym s) ∧ SetUpUnchanged s (symbolAction sym s) := by
  obtain ⟨hcfg, hf, hob, hagenda, -⟩ := symbolAction_frame hs
  exact ⟨⟨hf, fun _ => by rw [State.obRead, State.obRead, hob]⟩, hcfg, hagenda⟩

end Symbol

/-- The symbol under the cursor, where the scan state and the byte are known. -/
theorem symbolAt_eq_of_byte {s : State} {st : ScanState} {b : Byte} {sym : Symbol} (hst : s.x.st = st)
    (hread : s.ibRead s.x.cur = some b) (hdecode : decodeSymbol s.cfg st (some b) = sym) :
    symbolAt s = some sym := by
  rw [symbolAt_of_byte s hread, hst, hdecode]

/-- The symbol at the end of the bytes, where the scan state is known. -/
theorem symbolAt_eq_of_end {s : State} {st : ScanState} {sym : Symbol} (hst : s.x.st = st)
    (hend : s.x.cur = s.ibLen) (hdecode : decodeSymbol s.cfg st none = sym) :
    symbolAt s = some sym := by
  rw [symbolAt_of_end s hend, hst, hdecode]

theorem dropGarbage_diag (s : State) : (dropGarbage s).diag = s.diag := by
  rw [dropGarbage_eq]

/-- The action of `F.STOP` (41_extractor.md R131 to R138). -/
theorem actFStop_eq (s : State) :
    actFStop s =
      { s with
        x := { s.x with
          busy := false
          res := frameResult s.cfg.poly s.x.acc
          events := s.x.events ++ frameEvent (frameResult s.cfg.poly s.x.acc) }
        ib := s.ib.drop (s.x.cur + 1)
        diag := s.diag ++
          (if (frameResult s.cfg.poly s.x.acc).valid = false ∧ s.cfg.diagSink = true
            then [.report] else []) } :=
  returnFrame_eq _

/-- The last literal is the received checksum and the others are the payload (41_extractor.md R133,
R134). -/
theorem frameResult_snoc (poly : Byte) (pl : List Byte) (rx : Byte) :
    frameResult poly (pl ++ [rx]) =
      { complete := true, valid := crcPayload pl poly == some rx, payload := pl } := by
  simp [frameResult, splitLiterals]

/-- A frame that a stop tag ends is complete, whatever its literals (41_extractor.md R137). -/
@[simp] theorem frameResult_complete (poly : Byte) (acc : List Byte) :
    (frameResult poly acc).complete = true := by
  unfold frameResult
  split <;> rfl

/-- Only a payload with a byte has a checksum (42_crc_engine.md R165). -/
theorem ne_nil_of_crcPayload_eq_some {pl : List Byte} {poly c : Byte} (h : crcPayload pl poly = some c) :
    pl ≠ [] := by
  rintro rfl
  cases h

/-- With a payload the one event a completed frame can raise is the mismatch (41_extractor.md R134). -/
theorem frameEvent_of_payload_ne_nil {r : Result} (h : r.payload ≠ []) :
    frameEvent r = if r.valid then [] else [.crcMismatch] :=
  if_neg (by simpa using h)

/-- A literal joins `X.acc` and the cursor moves on, in both places where one is taken (41_extractor.md
R127, R130). -/
theorem advance_takeLiteral_accumulates (s : State) (d : Byte) :
    (advance (takeLiteral s d)).x.acc = s.x.acc ++ [d] ∧
      (advance (takeLiteral s d)).x.cur = s.x.cur + 1 ∧
      (advance (takeLiteral s d)).x.st = s.x.st ∧
      (advance (takeLiteral s d)).x.events = s.x.events ∧
      ScanGoesOn s (advance (takeLiteral s d)) ∧
      (advance (takeLiteral s d)).ib = s.ib := by
  rw [takeLiteral_eq]
  exact ⟨rfl, rfl, rfl, rfl, ⟨rfl, rfl, rfl⟩, rfl⟩

/-! ### The end of a poll's scan -/

/-- The reports that a poll with this result owes an attached sink (41_extractor.md R138). -/
def Result.reports (r : Result) : List Report :=
  if r.complete = true ∧ r.valid = false then [.report] else []

/-- From `s` to `t` the scan ended, and the reports it made are those its result owes. -/
structure ScanEnds (s t : State) : Prop where
  ended : t.x.busy = false
  diag : t.diag = s.diag ++ if s.cfg.diagSink then t.x.res.reports else []

/-- From `s` to `t` the scan went on, and one byte fewer of IB is left to read. -/
structure ScanReadsByte (s t : State) : Prop where
  goesOn : ScanGoesOn s t
  cfg : t.cfg = s.cfg
  read : t.ibLen + (s.x.cur + 1) = s.ibLen + t.x.cur

/-- What the rest of the scan ends with, the whole scan ends with. -/
theorem ScanReadsByte.trans_ends {s t u : State} (hst : ScanReadsByte s t) (htu : ScanEnds t u) :
    ScanEnds s u := by
  obtain ⟨-, -, hdiag⟩ := hst.goesOn
  exact ⟨htu.ended, by rw [htu.diag, hdiag, hst.cfg]⟩

/-- The incomplete result owes no report (41_extractor.md R138). -/
theorem returnIncomplete_scanEnds {s u : State} (hdiag : u.diag = s.diag) :
    ScanEnds s (returnIncomplete u) := by
  rw [returnIncomplete_eq]
  exact ⟨rfl, by simp [hdiag, Result.reports, Result.incomplete]⟩

/-- A completed frame is reported exactly where it is not valid (41_extractor.md R138). -/
theorem actFStop_scanEnds (s : State) : ScanEnds s (actFStop s) := by
  rw [actFStop_eq]
  refine ⟨rfl, ?_⟩
  cases hsink : s.cfg.diagSink <;> simp [Result.reports]

/-- Anchoring on the byte at the cursor reads one byte, the start tag. -/
theorem anchor_scanReadsByte {s u : State} (hcur : s.x.cur ≤ s.ibLen) (hgoes : ScanGoesOn s u)
    (hcfg : u.cfg = s.cfg) (hib : u.ib = s.ib.drop s.x.cur) : ScanReadsByte s (anchor u) := by
  have hlen : u.ibLen = s.ibLen - s.x.cur := by rw [State.ibLen, hib, List.length_drop]; rfl
  refine ⟨hgoes, hcfg, ?_⟩
  change u.ibLen + (s.x.cur + 1) = s.ibLen + 1
  omega

theorem advance_takeLiteral_scanReadsByte (s : State) (d : Byte) :
    ScanReadsByte s (advance (takeLiteral s d)) := by
  rw [takeLiteral_eq]
  exact ⟨⟨rfl, rfl, rfl⟩, rfl, rfl⟩

/-- Each symbol ends the scan or reads one byte (41_extractor.md R123 to R132, R139). -/
theorem symbolAction_ends_or_reads {s : State} (hcur : s.x.cur ≤ s.ibLen) (sym : Symbol) :
    ScanEnds s (symbolAction sym s) ∨ ScanReadsByte s (symbolAction sym s) := by
  cases sym with
  | hStart =>
    refine .inr (anchor_scanReadsByte hcur ?_ ?_ ?_) <;> rw [dropGarbage_eq]
    exact ⟨rfl, rfl, rfl⟩
  | hSkip d => exact .inr ⟨⟨rfl, rfl, rfl⟩, rfl, rfl⟩
  | hEnd => exact .inl (returnIncomplete_scanEnds (dropGarbage_diag s))
  | fEsc => exact .inr ⟨⟨rfl, rfl, rfl⟩, rfl, rfl⟩
  | fStop => exact .inl (actFStop_scanEnds s)
  | fStart => exact .inr (anchor_scanReadsByte hcur ⟨rfl, rfl, rfl⟩ rfl rfl)
  | fData d => exact .inr (advance_takeLiteral_scanReadsByte s d)
  | fEnd => exact .inl (returnIncomplete_scanEnds rfl)
  | eLit d =>
    obtain ⟨hgoes, hcfg, hread⟩ := advance_takeLiteral_scanReadsByte s d
    exact .inr ⟨hgoes, hcfg, hread⟩
  | eEnd => exact .inl (returnIncomplete_scanEnds rfl)

theorem scanStep_ends_or_reads {s : State} (hcur : s.x.cur ≤ s.ibLen) :
    ScanEnds s (scanStep s) ∨ ScanReadsByte s (scanStep s) := by
  obtain ⟨sym, hs⟩ := Option.isSome_iff_exists.mp ((symbolAt_isSome s).mpr hcur)
  rw [scanStep_of_symbol s hs]
  exact symbolAction_ends_or_reads hcur sym

/-- At the end of the bytes every scan state ends the scan (41_extractor.md R125, R126, R129). -/
theorem scanStep_ends_of_end {s : State} (hend : s.x.cur = s.ibLen) : ScanEnds s (scanStep s) := by
  rw [scanStep_of_symbol s (symbolAt_of_end s hend)]
  cases s.x.st with
  | hunt => exact returnIncomplete_scanEnds (dropGarbage_diag s)
  | frame => exact returnIncomplete_scanEnds rfl
  | escd => exact returnIncomplete_scanEnds rfl

/-- A scan with `n` bytes to read ends within `n + 1` steps (41_extractor.md R139). -/
theorem scanLoop_ends {n : Nat} {s : State} (hleft : s.ibLen = s.x.cur + n) (hbusy : s.x.busy = true) :
    ScanEnds s (scanLoop (n + 1) s) := by
  induction n generalizing s with
  | zero =>
    rw [scanLoop_busy s 0 hbusy, scanLoop_zero]
    exact scanStep_ends_of_end hleft.symm
  | succ n ih =>
    rw [scanLoop_busy s (n + 1) hbusy]
    rcases scanStep_ends_or_reads (s := s) (by omega) with hends | hreads
    · rw [scanLoop_done _ _ hends.ended]
      exact hends
    · obtain ⟨hstill, -, -⟩ := hreads.goesOn
      have hread := hreads.read
      exact hreads.trans_ends (ih (by omega) (hstill.trans hbusy))

/-- A poll ends its scan and makes the reports its result owes (41_extractor.md R138, R139): the scan
initialisation makes none. -/
theorem poll_ends (s : State) : ScanEnds s (poll s) := by
  have hloop : ScanEnds (beginScan s) (poll s) := scanLoop_ends (Nat.zero_add _).symm rfl
  exact ⟨hloop.ended, hloop.diag⟩

end Sys2Proof.Machine

namespace Sys2Proof.Proofs

open Sys2Proof.Machine Sys2Proof.Safety

/-- Settles O31: the poll's scan ends, so its result is the one its reports were made for. -/
theorem pollReportsInvalidFrames : Obligations.PollReportsInvalidFrames := by
  intro s t hsink hpoll
  obtain rfl := exec_extPoll_next hpoll
  rw [(poll_ends s).diag, if_pos hsink]
  rfl

/-- Settles O19: the decoder's row names the symbol, and its action writes the cursor and the scan state
alone. -/
theorem skipAndEscapeAdvance : Obligations.SkipAndEscapeAdvance := by
  refine fun s => ⟨fun d hst hread hstart => ?_, fun hst hread => ?_⟩
  · have hs : symbolAt s = some (.hSkip d) :=
      symbolAt_eq_of_byte hst hread (decodeSymbol_hunt_of_ne_start _ hstart)
    exact ⟨_, exec_of_symbolAt hs, rfl, rfl, ibUnchanged_of_ib_eq rfl,
      symbolAction_othersUnchanged hs⟩
  · have hs : symbolAt s = some .fEsc := symbolAt_eq_of_byte hst hread (decodeSymbol_frame_esc _)
    exact ⟨_, exec_of_symbolAt hs, rfl, rfl, ibUnchanged_of_ib_eq rfl,
      symbolAction_othersUnchanged hs⟩

/-- Settles O20: both symbols take the literal and advance; `E.LIT` then goes back to `FRAME`. -/
theorem literalsJoinTheAccumulation : Obligations.LiteralsJoinTheAccumulation := by
  intro s d hread
  obtain ⟨hacc, hcur, hsame, hevents, hgoes, hib⟩ := advance_takeLiteral_accumulates s d
  refine ⟨fun hst htag => ?_, fun hst => ?_⟩
  · obtain ⟨hstart, hstop, hesc⟩ := s.cfg.isTag_eq_false_iff.mp htag
    have hs : symbolAt s = some (.fData d) :=
      symbolAt_eq_of_byte hst hread (decodeSymbol_frame_of_ne_tags _ hstart hstop hesc)
    exact ⟨_, exec_of_symbolAt hs, hacc, hcur, hsame.trans hst, hevents, hgoes,
      ibUnchanged_of_ib_eq hib, symbolAction_othersUnchanged hs⟩
  · have hs : symbolAt s = some (.eLit d) :=
      symbolAt_eq_of_byte hst hread (decodeSymbol_escd_byte _ d)
    exact ⟨_, exec_of_symbolAt hs, hacc, hcur, rfl, hevents, hgoes,
      ibUnchanged_of_ib_eq hib, symbolAction_othersUnchanged hs⟩

/-- Settles O22: both symbols drop the bytes before the cursor and anchor; they differ in the event. -/
theorem startTagsAnchorTheScan : Obligations.StartTagsAnchorTheScan := by
  refine fun s hread => ⟨fun hst => ?_, fun hst hdistinct => ?_⟩
  · have hs : symbolAt s = some .hStart := symbolAt_eq_of_byte hst hread (decodeSymbol_hunt_start _)
    have haction : symbolAction .hStart s = _ := actHStart_eq s
    refine ⟨_, exec_of_symbolAt hs, ibRead_of_ib_eq_drop ?_, ?_, ?_, ?_, ?_, ?_,
      symbolAction_othersUnchanged hs⟩ <;> rw [haction]
    · by_cases hgarbage : s.x.cur = 0 <;> simp [hgarbage, Nat.pos_iff_ne_zero]
    · exact ⟨rfl, rfl, rfl⟩
  · obtain ⟨hstop, hesc, -⟩ := s.cfg.tagsDistinct_iff.mp hdistinct
    have hs : symbolAt s = some .fStart :=
      symbolAt_eq_of_byte hst hread (decodeSymbol_frame_start _ hstop hesc)
    exact ⟨_, exec_of_symbolAt hs, ibRead_of_ib_eq_drop rfl, rfl, rfl, rfl, rfl, ⟨rfl, rfl, rfl⟩,
      symbolAction_othersUnchanged hs⟩

/-- Settles O23: both end symbols return the incomplete result and write no byte. -/
theorem openFrameEndsIncomplete : Obligations.OpenFrameEndsIncomplete := by
  refine fun s hend => ⟨fun hst => ?_, fun hst => ?_⟩
  · have hs : symbolAt s = some .fEnd := symbolAt_eq_of_end hst hend (decodeSymbol_frame_end _)
    exact ⟨_, exec_of_symbolAt hs, rfl, rfl, rfl, rfl, ibUnchanged_of_ib_eq rfl,
      symbolAction_othersUnchanged hs⟩
  · have hs : symbolAt s = some .eEnd := symbolAt_eq_of_end hst hend (decodeSymbol_escd_end _)
    exact ⟨_, exec_of_symbolAt hs, rfl, rfl, rfl, rfl, ibUnchanged_of_ib_eq rfl,
      symbolAction_othersUnchanged hs⟩

/-- Settles O25: the literals split into payload and received checksum, and the result's one open bit
decides the event and the report. -/
theorem stopTagReturnsThePayload : Obligations.StopTagReturnsThePayload := by
  intro s pl rx c hst hread hdistinct hacc hcrc
  obtain ⟨-, -, hesc⟩ := s.cfg.tagsDistinct_iff.mp hdistinct
  have hs : symbolAt s = some .fStop :=
    symbolAt_eq_of_byte hst hread (decodeSymbol_frame_stop _ hesc)
  have hres : frameResult s.cfg.poly s.x.acc =
      { complete := true, valid := decide (c = rx), payload := pl } := by
    rw [hacc, frameResult_snoc, hcrc]
    simp [beq_eq_decide]
  have hpayload : (frameResult s.cfg.poly s.x.acc).payload ≠ [] := by
    rw [hres]
    exact ne_nil_of_crcPayload_eq_some hcrc
  have haction : symbolAction .fStop s = _ := actFStop_eq s
  rw [frameEvent_of_payload_ne_nil hpayload, hres] at haction
  refine ⟨_, exec_of_symbolAt hs, ibRead_of_ib_eq_drop ?_, ?_, ?_, ?_, ?_,
    symbolAction_othersUnchanged hs⟩ <;> rw [haction]
  · by_cases hvalid : c = rx <;> simp [hvalid]
  · by_cases hreported : c ≠ rx ∧ s.cfg.diagSink = true <;> simp [hreported]

end Sys2Proof.Proofs

/-! ## The step of the remainder (42_crc_engine.md R160) -/

namespace Sys2Proof.Machine

/-- The top bit of a byte is its bit of weight 128. -/
theorem getLsbD_seven_iff (r : Byte) : r.getLsbD 7 = true ↔ 128 ≤ r.toNat := by
  rw [← BitVec.msb_eq_getLsbD_last r, BitVec.msb_eq_decide, decide_eq_true_eq]

@[simp] theorem bitByte_getElem_zero (bit : Bool) : (bitByte bit)[0] = bit := by cases bit <;> rfl

@[simp] theorem bitByte_getElem_succ (bit : Bool) (i : Nat) (hi : i + 1 < 8) :
    (bitByte bit)[i + 1] = false := by
  cases bit <;> simp [bitByte]

/-- The shift leaves bit 0 clear, so ORing the bit in puts it there: the step's last two operations are
the library's shift with a bit concatenated. -/
theorem shiftLeft_or_bitByte (x : Byte) (bit : Bool) :
    x <<< 1 ||| bitByte bit = x.shiftConcat bit := by
  ext i hi
  cases i with
  | zero => simp
  | succ i => simp

/-- Shifting a byte left by one and ORing a bit in is doubling and adding the bit, modulo 256. -/
theorem shiftLeft_or_bitByte_toNat (x : Byte) (bit : Bool) :
    (x <<< 1 ||| bitByte bit).toNat = (x.toNat * 2 + bit.toNat) % 256 := by
  rw [shiftLeft_or_bitByte, BitVec.toNat_shiftConcat, Nat.shiftLeft_eq, pow_one]

end Sys2Proof.Machine

namespace Sys2Proof.Proofs

open Sys2Proof.Machine

/-- Settles O1: the top-bit test is the comparison with 128, and the shift with the bit ORed in is
doubling and adding it. -/
theorem crcStepXorsBeforeShift : Obligations.CrcStepXorsBeforeShift := by
  intro r bit poly
  rw [crcStep, shiftLeft_or_bitByte_toNat]
  simp only [getLsbD_seven_iff, apply_ite BitVec.toNat, BitVec.toNat_xor]

end Sys2Proof.Proofs

/-! ## The words of the instructions (30_encoding.md) -/

namespace Sys2Proof

variable (c : Config)

/-- The two bytes of a 9-bit word read back as it (30_encoding.md R85, log 20). -/
@[simp] theorem word9_bytes9 (lo : Byte) (bit8 : Bool) : word9 (bytes9 lo bit8) = .ok (lo, bit8) := by
  cases bit8 <;> rfl

/-- The word of an available byte decodes to the symbol of its row (30_encoding.md R80). -/
theorem decode_wire_byte {st : ScanState} {b : Byte} {sym : Symbol}
    (hsym : decodeSymbol c st (some b) = sym) :
    decode c (.wire st) (bytes9 b false) = .ok sym.instr := by
  simp [decode, wireInput, hsym]

/-- The word of the end decodes to the end symbol of the scan state (30_encoding.md R80). -/
theorem decode_wire_end {st : ScanState} {sym : Symbol} (hsym : decodeSymbol c st none = sym)
    (b : Byte) : decode c (.wire st) (bytes9 b true) = .ok sym.instr := by
  simp [decode, wireInput, hsym]

@[simp] theorem decode_frmByte_bytes9 (data : Byte) (last : Bool) :
    decode c (.call .frmByte) (bytes9 data last) = .ok (.frmByte data last) := by
  simp only [decode, word9_bytes9]

theorem decode_frmEncode_of_ne_nil {p : List Byte} (hp : p ≠ []) :
    decode c (.call .frmEncode) p = .ok (.frmEncode p) :=
  if_neg (by simpa using hp)

/-- Row by row of R80 and operand by operand of R85 to R87: distinct tags keep the rows of `STOP` and
`START` apart, and the operand checks those of `H.SKIP`, `F.DATA` and `FRM.ENCODE`. -/
theorem decode_encode {i : Instr} {f : Format} {bytes : List Byte} (hdistinct : c.tagsDistinct = true)
    (hwf : i.wellFormed c = true) (henc : encode c i = some (f, bytes)) : decode c f bytes = .ok i := by
  obtain ⟨hstartStop, hstartEsc, hstopEsc⟩ := c.tagsDistinct_iff.mp hdistinct
  cases i <;> cases henc
  case hStart => exact decode_wire_byte c (decodeSymbol_hunt_start c)
  case hSkip d =>
    exact decode_wire_byte c (decodeSymbol_hunt_of_ne_start c (bne_iff_ne.mp hwf))
  case hEnd => exact decode_wire_end c (decodeSymbol_hunt_end c) _
  case fEsc => exact decode_wire_byte c (decodeSymbol_frame_esc c)
  case fStop => exact decode_wire_byte c (decodeSymbol_frame_stop c hstopEsc)
  case fStart => exact decode_wire_byte c (decodeSymbol_frame_start c hstartStop hstartEsc)
  case fData d =>
    obtain ⟨hstart, hstop, hesc⟩ := c.isTag_eq_false_iff.mp (Bool.not_eq_true' _ ▸ hwf)
    exact decode_wire_byte c (decodeSymbol_frame_of_ne_tags c hstart hstop hesc)
  case fEnd => exact decode_wire_end c (decodeSymbol_frame_end c) _
  case eLit d => exact decode_wire_byte c (decodeSymbol_escd_byte c d)
  case eEnd => exact decode_wire_end c (decodeSymbol_escd_end c) _
  case frmByte data last => exact decode_frmByte_bytes9 c data last
  case frmEncode =>
    exact decode_frmEncode_of_ne_nil c (by simpa [Instr.wellFormed] using hwf)
  case extPoll => rfl
  case ibAppend data => rfl

/-- The CRC operations alone have no word (30_encoding.md R87). -/
theorem encode_eq_none_iff (i : Instr) :
    encode c i = none ↔
      (∃ u bit, i = .crcStep u bit) ∨ (∃ u v, i = .crcByte u v) ∨ (∃ u, i = .crcDrain u) ∨
        ∃ u v, i = .crcSeed u v := by
  cases i <;> simp [encode]

/-- The upper byte of a 9-bit word holds its bit 8 and seven zeros (log 20). -/
theorem bytes9_extractLsb' (w : BitVec 9) :
    [w.extractLsb' 0 8, (w.extractLsb' 8 1).setWidth 8] =
      bytes9 (w.extractLsb' 0 8) (w.getLsbD 8) := by
  have hbit : w.extractLsb' 8 1 = BitVec.ofBool (w.getLsbD 8) := by
    ext i hi
    obtain rfl : i = 0 := by omega
    simp
  rw [hbit]
  cases w.getLsbD 8 <;> rfl

end Sys2Proof

namespace Sys2Proof.Proofs

/-- Settles O57, row by row of the table. -/
theorem decodeOfEncodeIsTheInstruction : Obligations.DecodeOfEncodeIsTheInstruction :=
  fun c i hdistinct hwf =>
    ⟨fun _ _ henc => decode_encode c hdistinct hwf henc, encode_eq_none_iff c i⟩

/-- Settles O58: a 9-bit word's two bytes are the encoder's, and the other operands are their bytes. -/
theorem callWordsDecode : Obligations.CallWordsDecode := by
  refine ⟨fun c w => ?_, fun _ _ => rfl, fun c _ hp => decode_frmEncode_of_ne_nil c hp, fun _ => rfl⟩
  rw [bytes9_extractLsb', decode_frmByte_bytes9]

/-- Settles O59: fourteen fixed words, each evaluated. -/
theorem wordsOfTheTableDecode : Obligations.WordsOfTheTableDecode := by
  unfold Obligations.WordsOfTheTableDecode
  decide

/-- Settles O15: the operation and its decoder both test for the empty payload first. -/
theorem emptyPayloadIsRefused : Obligations.EmptyPayloadIsRefused :=
  ⟨fun _ => rfl, fun _ => rfl⟩

end Sys2Proof.Proofs

/-! ## What a poll keeps: one induction over its loop -/

namespace Sys2Proof.Machine

open Sys2Proof.Safety

/-- What every symbol's action keeps, the loop of 41_extractor.md R120 keeps. -/
theorem scanLoop_induct {P : State → Prop}
    (hstep : ∀ s sym, s.x.busy = true → symbolAt s = some sym → P s → P (symbolAction sym s)) (n : Nat)
    {s : State} (hs : P s) : P (scanLoop n s) := by
  induction n generalizing s with
  | zero => exact hs
  | succ n ih =>
    cases hbusy : s.x.busy with
    | false => rwa [scanLoop_done s _ hbusy]
    | true =>
      rw [scanLoop_busy s n hbusy]
      refine ih ?_
      cases hsym : symbolAt s with
      | none => simpa [scanStep, hsym] using hs
      | some sym => rw [scanStep_of_symbol s hsym]; exact hstep s sym hbusy hsym hs

/-- The configuration, the Framer, OB and the calls to come are as before. -/
structure SameOutsideExtractor (s t : State) : Prop where
  cfg : t.cfg = s.cfg
  f : t.f = s.f
  ob : t.ob = s.ob
  agenda : t.agenda = s.agenda

theorem symbolAction_sameOutside {s : State} {sym : Symbol} (hs : symbolAt s = some sym) :
    SameOutsideExtractor s (symbolAction sym s) := by
  obtain ⟨hcfg, hf, hob, hagenda, -⟩ := symbolAction_frame hs
  exact ⟨hcfg, hf, hob, hagenda⟩

theorem SameOutsideExtractor.trans {s t u : State} (hst : SameOutsideExtractor s t)
    (htu : SameOutsideExtractor t u) : SameOutsideExtractor s u :=
  ⟨htu.cfg.trans hst.cfg, htu.f.trans hst.f, htu.ob.trans hst.ob, htu.agenda.trans hst.agenda⟩

/-- A poll is the Extractor's alone (60_exceptions.md R193). -/
theorem poll_sameOutside (s : State) : SameOutsideExtractor s (poll s) :=
  scanLoop_induct (P := SameOutsideExtractor s)
    (fun _ _ _ hsym hsame => hsame.trans (symbolAction_sameOutside hsym)) _ ⟨rfl, rfl, rfl, rfl⟩

end Sys2Proof.Machine

/-! ## The wire text of a payload (30_encoding.md section 1) -/

namespace Sys2Proof.Wire

open Sys2Proof.Machine

variable (c : Config)

theorem item_eq (b : Byte) : item c b = (if c.isTag b then [c.esc] else []) ++ [b] := by
  unfold item
  split <;> rfl

theorem block_append (p q : List Byte) : block c (p ++ q) = block c p ++ block c q := by
  simp [block]

theorem openBlock_of_ne_nil {p : List Byte} (hp : p ≠ []) : openBlock c p = c.start :: block c p :=
  if_neg (by simpa using hp)

/-- One more byte of an open block: the first comes with the start tag (40_framer.md R103, R104). -/
theorem openBlock_snoc (p : List Byte) (b : Byte) :
    openBlock c (p ++ [b]) =
      openBlock c p ++ (if p = [] then [c.start] else []) ++ item c b := by
  rw [openBlock_of_ne_nil c (by simp), block_append]
  by_cases hp : p = []
  · subst hp; simp [openBlock, block]
  · simp [openBlock_of_ne_nil c hp, hp, block]

/-- A frame is its block, open, and then the checksum and the stop tag (40_framer.md R107). -/
theorem frame_eq_openBlock {p : List Byte} {crc : Byte} (hcrc : crcPayload p c.poly = some crc) :
    frame c p = openBlock c p ++ [crc, c.stop] := by
  simp [frame, openBlock_of_ne_nil c (ne_nil_of_crcPayload_eq_some hcrc), hcrc]

theorem length_blocks (p : List Byte) : (blocks p).length = (p.length + 7) / 8 := by
  simp [blocks]

/-- A first run of 8 bytes is a block of its own (40_framer.md R109). -/
theorem blocks_append_of_length_eq {q : List Byte} (hq : q.length = 8) (p : List Byte) :
    blocks (q ++ p) = q :: blocks p := by
  have hcount : ((q ++ p).length + 7) / 8 = (p.length + 7) / 8 + 1 := by
    rw [List.length_append, hq]; omega
  have hdrop (j : Nat) : (q ++ p).drop (8 * (j + 1)) = p.drop (8 * j) := by
    rw [show 8 * (j + 1) = q.length + 8 * j by omega, ← List.drop_drop, List.drop_left]
  simp only [blocks, hcount, List.range_succ_eq_map, List.map_cons, List.map_map]
  congr 1
  · simp [← hq]
  · exact List.map_congr_left fun j _ => congrArg (List.take 8) (hdrop j)

/-- Up to 8 bytes are one block (40_framer.md R109). -/
theorem blocks_of_length_le {p : List Byte} (hp : p ≠ []) (hle : p.length ≤ 8) : blocks p = [p] := by
  have hcount : (p.length + 7) / 8 = 1 := by
    have := List.length_pos_iff.mpr hp
    omega
  simp [blocks, hcount, List.take_of_length_le hle]

/-- Induction over the blocks: a payload is empty, or at most 8 bytes, or 8 bytes and a payload. -/
theorem blocks_induct {P : List Byte → Prop} (hnil : P [])
    (hshort : ∀ p, p ≠ [] → p.length ≤ 8 → P p)
    (hlong : ∀ q p, q.length = 8 → P p → P (q ++ p)) (p : List Byte) : P p := by
  induction hlen : p.length using Nat.strong_induction_on generalizing p with
  | _ n ih =>
    by_cases hle : p.length ≤ 8
    · by_cases hp : p = []
      · exact hp ▸ hnil
      · exact hshort p hp hle
    · rw [← List.take_append_drop 8 p]
      exact hlong _ _ (List.length_take_of_le (by omega))
        (ih _ (by rw [List.length_drop]; omega) _ rfl)

theorem flatten_blocks (p : List Byte) : (blocks p).flatten = p := by
  induction p using blocks_induct with
  | hnil => rfl
  | hshort p hp hle => simp [blocks_of_length_le hp hle]
  | hlong q p hq ih => rw [blocks_append_of_length_eq hq, List.flatten_cons, ih]

/-- Every block has 1 to 8 bytes (30_encoding.md R76). -/
theorem length_of_mem_blocks {p q : List Byte} (hq : q ∈ blocks p) : 1 ≤ q.length ∧ q.length ≤ 8 := by
  induction p using blocks_induct with
  | hnil => cases hq
  | hshort p hp hle =>
    rw [blocks_of_length_le hp hle, List.mem_singleton] at hq
    exact hq ▸ ⟨List.length_pos_iff.mpr hp, hle⟩
  | hlong r p hr ih =>
    rw [blocks_append_of_length_eq hr, List.mem_cons] at hq
    rcases hq with rfl | hq
    · omega
    · exact ih hq

end Sys2Proof.Wire

/-! ## A payload through the Framer (40_framer.md) -/

namespace Sys2Proof.Machine

open Sys2Proof.Safety

/-- After the bytes `base` OB holds the open block of the payload bytes `cur`, `F.pos` is their number
and `F.crc` their running remainder (10_state.md R21, R22). -/
structure BlockOpen (s : State) (base cur : List Byte) : Prop where
  pos : cur.length = s.f.pos.val
  ob : s.ob = base ++ Wire.openBlock s.cfg cur
  crc : ∀ b rest, cur = b :: rest → s.f.crc = crcRun s.cfg.poly 0 b cur

theorem framerInv_iff (s : State) :
    FramerInv s ↔ ∃ (done : List (List Byte)) (cur : List Byte),
      (∀ p ∈ done, 1 ≤ p.length ∧ p.length ≤ 8) ∧
      BlockOpen s (done.flatMap (Wire.frame s.cfg)) cur :=
  ⟨fun ⟨done, cur, hdone, hpos, hob, hcrc⟩ => ⟨done, cur, hdone, hpos, hob, hcrc⟩,
    fun ⟨done, cur, hdone, hpos, hob, hcrc⟩ => ⟨done, cur, hdone, hpos, hob, hcrc⟩⟩

/-- With no block open, all of OB lies before the open block. -/
theorem blockOpen_nil {s : State} (hpos : s.f.pos = 0) : BlockOpen s s.ob [] :=
  ⟨by simp [hpos], by simp [Wire.openBlock], by simp⟩

section Open

variable {s : State} {base cur : List Byte} (hopen : BlockOpen s base cur)
include hopen

theorem BlockOpen.pos_eq_zero_iff : s.f.pos = 0 ↔ cur = [] := by
  rw [← List.length_eq_zero_iff, hopen.pos, Fin.ext_iff]
  rfl

/-- The seed and the feed of `FRM.BYTE` are the next turn of the loop of `CrcPayload` (40_framer.md R103,
R106; 42_crc_engine.md R165). -/
theorem BlockOpen.fed_eq_crcRun (b r : Byte) :
    crcByte (if s.f.pos = 0 then b else s.f.crc) b s.cfg.poly =
      crcRun s.cfg.poly 0 r (cur ++ [b]) := by
  rw [crcRun_snoc]
  have hlt : cur.length < 8 := hopen.pos ▸ s.f.pos.isLt
  have hseed : s.f.pos = 0 ↔ (0 + cur.length) % 8 = 0 := by
    rw [hopen.pos_eq_zero_iff, ← List.length_eq_zero_iff]
    omega
  by_cases hpos : s.f.pos = 0
  · rw [if_pos hpos, if_pos (hseed.mp hpos)]
  · rw [if_neg hpos, if_neg (hpos ∘ hseed.mpr)]
    cases cur with
    | nil => exact absurd (hopen.pos_eq_zero_iff.mpr rfl) hpos
    | cons a rest => rw [hopen.crc a rest rfl, crcRun_reseeds _ rfl a r (by simp)]

/-- The drain at a close gives the checksum of the block (40_framer.md R107; 42_crc_engine.md R165). -/
theorem BlockOpen.drained_eq_crcPayload (b : Byte) :
    crcPayload (cur ++ [b]) s.cfg.poly =
      some (crcDrain (crcByte (if s.f.pos = 0 then b else s.f.crc) b s.cfg.poly) s.cfg.poly) := by
  rw [hopen.fed_eq_crcRun b b, crcPayload_of_ne_nil (by simp) b]

/-- The start tag, the escape tag and the byte that `FRM.BYTE` emits make the open block one byte longer
(40_framer.md R103 to R105). -/
theorem BlockOpen.ob_append (b : Byte) :
    s.ob ++ ((if s.f.pos = 0 then [s.cfg.start] else []) ++
      (if s.cfg.isTag b then [s.cfg.esc] else []) ++ [b]) =
        base ++ Wire.openBlock s.cfg (cur ++ [b]) := by
  simp only [hopen.ob, Wire.openBlock_snoc, Wire.item_eq, hopen.pos_eq_zero_iff, List.append_assoc]

variable (b : Byte) (last : Bool)

/-- A byte that does not close its block makes it longer (40_framer.md R108). -/
theorem frameByte_blockOpen_of_not_close (hclose : ¬(s.f.pos = 7 ∨ last = true)) :
    BlockOpen (frameByte s b last) base (cur ++ [b]) := by
  refine ⟨?_, ?_, ?_⟩
  · rw [frameByte_pos_val, if_neg hclose, List.length_append, hopen.pos]
    rfl
  · rw [frameByte_ob, frameByteBytes, if_neg hclose, List.append_nil, frameByte_cfg, hopen.ob_append]
  · intro a rest _
    rw [frameByte_crc, if_neg hclose, frameByte_cfg, hopen.fed_eq_crcRun b a]

/-- A byte that closes its block makes it a whole frame, whose checksum stays in `F.crc` (40_framer.md
R107, R108, R110). -/
theorem frameByte_blockOpen_of_close (hclose : s.f.pos = 7 ∨ last = true) :
    BlockOpen (frameByte s b last) (base ++ Wire.frame s.cfg (cur ++ [b])) [] ∧
      crcPayload (cur ++ [b]) s.cfg.poly = some (frameByte s b last).f.crc := by
  have hcrc := hopen.drained_eq_crcPayload b
  refine ⟨⟨?_, ?_, by simp⟩, by rw [hcrc, frameByte_crc, if_pos hclose]⟩
  · rw [frameByte_pos_val, if_pos hclose]
    rfl
  · rw [frameByte_ob, frameByteBytes, if_pos hclose, ← List.append_assoc, hopen.ob_append,
      Wire.frame_eq_openBlock _ hcrc]
    simp [Wire.openBlock]

end Open

/-- `FRM.ENCODE` from an open block: the block's bytes and the payload go out as whole frames
(40_framer.md R109, R110; log 7). -/
theorem frameAll_blockOpen {s : State} {base cur p : List Byte} (hopen : BlockOpen s base cur)
    (hp : p ≠ []) :
    BlockOpen (frameAll s p) (base ++ (Wire.blocks (cur ++ p)).flatMap (Wire.frame s.cfg)) [] ∧
      (Wire.blocks (cur ++ p)).getLast?.bind (fun q => crcPayload q s.cfg.poly) =
        some (frameAll s p).f.crc := by
  induction p generalizing s base cur with
  | nil => exact absurd rfl hp
  | cons b rest ih =>
    have hlt : cur.length < 8 := hopen.pos ▸ s.f.pos.isLt
    by_cases hrest : rest = []
    · subst hrest
      rw [frameAll_single, Wire.blocks_of_length_le (by simp) (by rw [List.length_append]; exact hlt)]
      simpa using frameByte_blockOpen_of_close hopen b true (.inr rfl)
    · rw [frameAll_cons s b hrest, List.append_cons]
      by_cases hpos : s.f.pos = 7
      · have hlen : (cur ++ [b]).length = 8 := by
          rw [List.length_append, hopen.pos, hpos]
          rfl
        obtain ⟨hnext, -⟩ := frameByte_blockOpen_of_close hopen b false (.inl hpos)
        obtain ⟨hall, hlast⟩ := ih hnext hrest
        have hblocks : Wire.blocks rest ≠ [] := fun h => hrest (by
          rw [← Wire.flatten_blocks rest, h, List.flatten_nil])
        rw [Wire.blocks_append_of_length_eq hlen, List.flatMap_cons, ← List.append_assoc,
          List.getLast?_cons_of_ne_nil hblocks]
        exact ⟨by simpa using hall, by simpa using hlast⟩
      · have hnext := frameByte_blockOpen_of_not_close hopen b false (by simpa using hpos)
        simpa using ih hnext hrest

/-- One `FRM.BYTE` keeps OB whole frames and the open block. -/
theorem frameByte_framerInv {s : State} (hinv : FramerInv s) (b : Byte) (last : Bool) :
    FramerInv (frameByte s b last) := by
  obtain ⟨done, cur, hdone, hopen⟩ := (framerInv_iff s).mp hinv
  have hlt : cur.length < 8 := hopen.pos ▸ s.f.pos.isLt
  rw [framerInv_iff, frameByte_cfg]
  by_cases hclose : s.f.pos = 7 ∨ last = true
  · refine ⟨done ++ [cur ++ [b]], [], fun p hp => ?_, ?_⟩
    · rcases List.mem_append.mp hp with hp | hp
      · exact hdone p hp
      · rw [List.mem_singleton.mp hp, List.length_append, List.length_singleton]
        omega
    · simpa using (frameByte_blockOpen_of_close hopen b last hclose).1
  · exact ⟨done, cur ++ [b], hdone, frameByte_blockOpen_of_not_close hopen b last hclose⟩

/-- So does `FRM.ENCODE`, byte by byte. -/
theorem frameAll_framerInv {s : State} (hinv : FramerInv s) (p : List Byte) :
    FramerInv (frameAll s p) := by
  induction p generalizing s with
  | nil => exact hinv
  | cons b rest ih =>
    by_cases hrest : rest = []
    · subst hrest
      exact frameByte_framerInv hinv b true
    · rw [frameAll_cons s b hrest]
      exact ih (frameByte_framerInv hinv b false)

/-- The invariant speaks of the configuration, the Framer and OB alone. -/
theorem framerInv_of_same {s t : State} (hinv : FramerInv s) (hcfg : t.cfg = s.cfg) (hf : t.f = s.f)
    (hob : t.ob = s.ob) : FramerInv t := by
  unfold FramerInv
  rw [hcfg, hf, hob]
  exact hinv

end Sys2Proof.Machine

namespace Sys2Proof.Proofs

open Sys2Proof.Machine Sys2Proof.Safety

/-- Settles O52: only the two operations of the Framer write `F.crc`, `F.pos` or OB within a step, and
each byte either makes the open block longer or closes it. -/
theorem stepKeepsObWellFramed : Obligations.StepKeepsObWellFramed := by
  intro s t hinv hstep
  obtain ⟨-, ⟨-, sym, hsym, rfl⟩ | ⟨-, -, rfl⟩ | ⟨-, c, rest, i, -, hdecode, hexec⟩⟩ :=
    step_cases hstep
  · obtain ⟨hcfg, hf, hob, -⟩ := symbolAction_sameOutside hsym
    exact framerInv_of_same hinv hcfg hf hob
  · exact hinv
  · have hinv : FramerInv { s with agenda := rest } := hinv
    rcases decodeCall_cases hdecode with ⟨data, last, rfl⟩ | ⟨p, -, rfl⟩ | rfl | ⟨data, rfl⟩
    · obtain rfl := exec_frmByte_next hexec
      exact frameByte_framerInv hinv data last
    · obtain ⟨-, rfl⟩ := exec_frmEncode_next hexec
      exact frameAll_framerInv hinv p
    · obtain rfl := exec_extPoll_next hexec
      obtain ⟨hcfg, hf, hob, -⟩ := poll_sameOutside { s with agenda := rest }
      exact framerInv_of_same hinv hcfg hf hob
    · obtain ⟨rfl, -⟩ := exec_ibAppend_next hexec
      exact framerInv_of_same hinv rfl rfl rfl

end Sys2Proof.Proofs

/-! ## The Framer's operations and their stops (40_framer.md) -/

namespace Sys2Proof.Machine

open Sys2Proof.Safety

/-- An operation whose bytes pass the sink's capacity is refused whole (log 8). -/
theorem withinSink_refused_of_not_fits {t : State} (h : ¬fits t.cfg.obCap t.ob.length = true) :
    withinSink t = .refused .outboundSinkFull :=
  if_neg h

theorem exec_frmEncode_of_ne_nil {p : List Byte} (s : State) (hp : p ≠ []) :
    exec (.frmEncode p) s = withinSink (frameAll s p) :=
  if_neg (by simpa using hp)

/-- A sink that holds what `FRM.ENCODE` leaves held what was there before (20_memory.md R57). -/
theorem fits_of_fits_frameAll {s : State} {p : List Byte}
    (h : fits (frameAll s p).cfg.obCap (frameAll s p).ob.length = true) :
    fits s.cfg.obCap s.ob.length = true := by
  obtain ⟨w, hob⟩ := frameAll_ob_grows s p
  obtain ⟨hcfg, -⟩ := frameAll_frame s p
  rw [fits_iff, hcfg, hob, List.length_append] at h
  rw [fits_iff]
  exact fun cap hcap => le_of_add_le_left (h cap hcap)

/-- The sink's check after the last byte decides as the checks after each byte do (30_encoding.md
R91). -/
theorem withinSink_frameAll (s : State) {p : List Byte} (hp : p ≠ []) :
    withinSink (frameAll s p) = andThen (withinSink s) (exec (.frmEncode p)) := by
  by_cases hfits : fits s.cfg.obCap s.ob.length = true
  · rw [withinSink_eq_next.mpr ⟨rfl, hfits⟩]
    exact (exec_frmEncode_of_ne_nil s hp).symm
  · rw [withinSink_refused_of_not_fits hfits,
      withinSink_refused_of_not_fits (hfits ∘ fits_of_fits_frameAll)]
    rfl

theorem frameAll_extractorSideUnchanged (s : State) (p : List Byte) :
    ExtractorSideUnchanged s (frameAll s p) := by
  obtain ⟨-, hx, hib, hdiag, -⟩ := frameAll_frame s p
  exact ⟨hx, hdiag, ibUnchanged_of_ib_eq hib⟩

theorem frameAll_setUpUnchanged (s : State) (p : List Byte) : SetUpUnchanged s (frameAll s p) := by
  obtain ⟨hcfg, -, -, -, hagenda⟩ := frameAll_frame s p
  exact ⟨hcfg, hagenda⟩

/-- With no block open `FRM.ENCODE` adds the payload's frames (40_framer.md R109). -/
theorem frameAll_ob_of_pos_zero {s : State} {p : List Byte} (hpos : s.f.pos = 0) (hp : p ≠ []) :
    (frameAll s p).ob = s.ob ++ (Wire.blocks p).flatMap (Wire.frame s.cfg) := by
  obtain ⟨hdone, -⟩ := frameAll_blockOpen (blockOpen_nil hpos) hp
  simpa [Wire.openBlock] using hdone.ob

end Sys2Proof.Machine

namespace Sys2Proof.Wire

open Sys2Proof.Machine

variable (c : Config)

/-- A block has a byte for each payload byte and one more for each tag (30_encoding.md R75). -/
theorem length_block (p : List Byte) : (block c p).length = p.length + (p.filter c.isTag).length := by
  induction p with
  | nil => rfl
  | cons b rest ih =>
    have hitem : (item c b).length = 1 + ([b].filter c.isTag).length := by
      by_cases htag : c.isTag b <;> simp [item, htag]
    rw [← List.singleton_append, block_append, List.length_append, ih, List.filter_append]
    simp only [block, List.flatMap_singleton, List.length_append, hitem, List.length_singleton]
    omega

/-- Start tag, checksum and stop tag are three bytes more (30_encoding.md R75). -/
theorem length_frame {p : List Byte} (hp : p ≠ []) :
    (frame c p).length = p.length + (p.filter c.isTag).length + 3 := by
  rw [frame, crcPayload_of_ne_nil hp 0]
  simp [length_block]

/-- The length of frames one after the other, by the bytes they carry. -/
theorem length_flatMap_frame {bs : List (List Byte)} (hbs : ∀ p ∈ bs, p ≠ []) :
    (bs.flatMap (frame c)).length =
      bs.flatten.length + (bs.flatten.filter c.isTag).length + 3 * bs.length := by
  induction bs with
  | nil => rfl
  | cons p bs ih =>
    obtain ⟨hp, hbs⟩ := List.forall_mem_cons.mp hbs
    simp only [List.flatMap_cons, List.flatten_cons, List.filter_append, List.length_append,
      List.length_cons, length_frame c hp, ih hbs]
    omega

theorem ne_nil_of_mem_blocks {p q : List Byte} (hq : q ∈ blocks p) : q ≠ [] :=
  List.length_pos_iff.mp (length_of_mem_blocks hq).1

end Sys2Proof.Wire

namespace Sys2Proof.Proofs

open Sys2Proof.Machine Sys2Proof.Safety

/-- Settles O10: an answer of `FRM.BYTE` is `frameByte`, whose remainder is the Framer's law. -/
theorem frmByteFeedsTheRemainder : Obligations.FrmByteFeedsTheRemainder := by
  intro s t data last h
  obtain rfl := exec_frmByte_next h
  exact frameByte_crc s data last

/-- Settles O11: past the capacity the sink has no room for the operation's bytes. -/
theorem frmByteStopsAtFullSink : Obligations.FrmByteStopsAtFullSink := by
  intro s data last cap hcap hpast
  refine withinSink_refused_of_not_fits fun hfits => ?_
  have hroom : SinkHasRoom s (frameByteBytes s data last).length :=
    (fits_obCap_iff_sinkHasRoom (frameByte_cfg s data last) (frameByte_ob s data last)).mp hfits
  exact absurd (hroom cap hcap) (not_le_of_gt hpast)

/-- Settles O12: both sides frame the same bytes, and OB only grows, so one check of the sink at the end
stops exactly where a check after the first byte or a later one does. -/
theorem frmEncodeIsItsFrmBytes : Obligations.FrmEncodeIsItsFrmBytes := by
  refine fun s b rest => ⟨rfl, fun hrest => ?_⟩
  rw [exec_frmEncode_of_ne_nil s (List.cons_ne_nil b rest), frameAll_cons s b hrest]
  exact withinSink_frameAll _ hrest

/-- Settles O13: the byte-by-byte account of the open block, from no block open. -/
theorem frmEncodeAppendsWholeFrames : Obligations.FrmEncodeAppendsWholeFrames := by
  intro s p hp hpos hroom
  obtain ⟨hdone, hcrc⟩ := frameAll_blockOpen (blockOpen_nil hpos) hp
  have hob := frameAll_ob_of_pos_zero hpos hp
  have hsetUp := frameAll_setUpUnchanged s p
  have hfits := (fits_obCap_iff_sinkHasRoom hsetUp.1 hob).mpr hroom
  exact ⟨frameAll s p, (exec_frmEncode_of_ne_nil s hp).trans (withinSink_eq_next.mpr ⟨rfl, hfits⟩),
    hob, fun _ ha => obRead_of_ob_eq_append hob ha, hdone.pos_eq_zero_iff.mpr rfl, hcrc,
    frameAll_extractorSideUnchanged s p, hsetUp⟩

/-- Settles O14: the frames' lengths add up over the blocks, which are the payload cut up; of at most 8
bytes at most 8 are tags. -/
theorem wireLengths : Obligations.WireLengths := by
  refine ⟨fun c p _ => ?_, fun c p hone height => ?_⟩
  · rw [Wire.length_flatMap_frame c fun _ => Wire.ne_nil_of_mem_blocks, Wire.flatten_blocks,
      Wire.length_blocks]
  · have htags : (p.filter c.isTag).length ≤ p.length := List.length_filter_le _ _
    rw [Wire.length_frame c (List.length_pos_iff.mp hone)]
    omega

end Sys2Proof.Proofs

/-! ## The symbols of a scan and its order (41_extractor.md) -/

namespace Sys2Proof.Machine

open Sys2Proof.Safety

/-- What a byte is to a scan in `FRAME`, in the order of the decoder's tests (30_encoding.md R80). -/
inductive ByteInFrame (c : Config) : Byte → Prop where
  | esc : ByteInFrame c c.esc
  | stop (hesc : c.stop ≠ c.esc) : ByteInFrame c c.stop
  | start (hesc : c.start ≠ c.esc) (hstop : c.start ≠ c.stop) : ByteInFrame c c.start
  | data {b : Byte} (htag : c.isTag b = false) : ByteInFrame c b

theorem byteInFrame_cases (c : Config) (b : Byte) : ByteInFrame c b := by
  by_cases hesc : b = c.esc
  · exact hesc ▸ .esc
  by_cases hstop : b = c.stop
  · subst hstop
    exact .stop hesc
  by_cases hstart : b = c.start
  · subst hstart
    exact .start hesc hstop
  · exact .data (c.isTag_eq_false_iff.mpr ⟨hstart, hstop, hesc⟩)

/-- Where a symbol stands: the scan state and the byte under the cursor, or the end, that decode to it
(41_extractor.md R122, 30_encoding.md R80). -/
inductive StandsAt (s : State) : Symbol → Prop where
  | hStart (hst : s.x.st = .hunt) (hread : s.ibRead s.x.cur = some s.cfg.start) : StandsAt s .hStart
  | hSkip {d : Byte} (hst : s.x.st = .hunt) (hread : s.ibRead s.x.cur = some d)
      (hstart : d ≠ s.cfg.start) : StandsAt s (.hSkip d)
  | hEnd (hst : s.x.st = .hunt) (hend : s.x.cur = s.ibLen) : StandsAt s .hEnd
  | fEsc (hst : s.x.st = .frame) (hread : s.ibRead s.x.cur = some s.cfg.esc) : StandsAt s .fEsc
  | fStop (hst : s.x.st = .frame) (hread : s.ibRead s.x.cur = some s.cfg.stop)
      (hesc : s.cfg.stop ≠ s.cfg.esc) : StandsAt s .fStop
  | fStart (hst : s.x.st = .frame) (hread : s.ibRead s.x.cur = some s.cfg.start)
      (hesc : s.cfg.start ≠ s.cfg.esc) (hstop : s.cfg.start ≠ s.cfg.stop) : StandsAt s .fStart
  | fData {d : Byte} (hst : s.x.st = .frame) (hread : s.ibRead s.x.cur = some d)
      (htag : s.cfg.isTag d = false) : StandsAt s (.fData d)
  | fEnd (hst : s.x.st = .frame) (hend : s.x.cur = s.ibLen) : StandsAt s .fEnd
  | eLit {d : Byte} (hst : s.x.st = .escd) (hread : s.ibRead s.x.cur = some d) : StandsAt s (.eLit d)
  | eEnd (hst : s.x.st = .escd) (hend : s.x.cur = s.ibLen) : StandsAt s .eEnd

/-- With a byte under the cursor, the decoder's tests in their order. -/
theorem standsAt_of_byte {s : State} {b : Byte} (hread : s.ibRead s.x.cur = some b) :
    StandsAt s (decodeSymbol s.cfg s.x.st (some b)) := by
  cases hst : s.x.st with
  | hunt =>
    by_cases hstart : b = s.cfg.start
    · subst hstart
      rw [decodeSymbol_hunt_start]
      exact .hStart hst hread
    · rw [decodeSymbol_hunt_of_ne_start _ hstart]
      exact .hSkip hst hread hstart
  | frame =>
    cases byteInFrame_cases s.cfg b with
    | esc => rw [decodeSymbol_frame_esc]; exact .fEsc hst hread
    | stop hesc => rw [decodeSymbol_frame_stop _ hesc]; exact .fStop hst hread hesc
    | start hesc hstop =>
      rw [decodeSymbol_frame_start _ hstop hesc]
      exact .fStart hst hread hesc hstop
    | data htag =>
      obtain ⟨hstart, hstop, hesc⟩ := s.cfg.isTag_eq_false_iff.mp htag
      rw [decodeSymbol_frame_of_ne_tags _ hstart hstop hesc]
      exact .fData hst hread htag
  | escd => exact .eLit hst hread

theorem standsAt_of_symbolAt {s : State} {sym : Symbol} (hs : symbolAt s = some sym) :
    StandsAt s sym := by
  cases hread : s.ibRead s.x.cur with
  | some b =>
    obtain rfl := Option.some.inj ((symbolAt_of_byte s hread).symm.trans hs)
    exact standsAt_of_byte hread
  | none =>
    have hle : s.x.cur ≤ s.ibLen := (symbolAt_isSome s).mp (Option.isSome_of_eq_some hs)
    have hend : s.x.cur = s.ibLen := le_antisymm hle ((s.ibRead_eq_none_iff _).mp hread)
    obtain rfl := Option.some.inj ((symbolAt_of_end s hend).symm.trans hs)
    cases hst : s.x.st with
    | hunt => exact .hEnd hst hend
    | frame => exact .fEnd hst hend
    | escd => exact .eEnd hst hend

/-- A byte is read below the end only (20_memory.md R52). -/
theorem cur_lt_of_ibRead {s : State} {i : Nat} {b : Byte} (hread : s.ibRead i = some b) :
    i < s.ib.length :=
  (List.getElem?_eq_some_iff.mp hread).1

/-! ### The two forms of the accumulation (41_extractor.md R142) -/

/-- An empty accumulation is empty in both forms. -/
theorem formsAgree_of_cleared {s : State} (hacc : s.x.acc = []) (hhv : s.x.hv = false)
    (hpv : s.x.pv = false) (hcnt : s.x.cnt = 0) (hpay : s.x.pay = []) : FormsAgree s where
  empty _ := ⟨hacc, hpay⟩
  held h := absurd (hhv.symm.trans h) Bool.false_ne_true
  committed := by rw [hpv, hpay]; rfl
  count := by rw [hcnt, hpay]; rfl
  remainder b rest h := absurd (hpay.symm.trans h) (List.cons_ne_nil b rest).symm

section Forms

variable {s : State} (hforms : FormsAgree s)
include hforms

theorem formsAgree_of_unchanged {t : State} (hcfg : t.cfg = s.cfg) (hacc : t.x.acc = s.x.acc)
    (hreg : RegisterFormUnchanged s t) : FormsAgree t := by
  obtain ⟨hcrc, hhold, hhv, hcnt, hpv, hpay⟩ := hreg
  obtain ⟨hempty, hheld, hcommitted, hcount, hremainder⟩ := hforms
  constructor <;> simpa only [hcfg, hacc, hcrc, hhold, hhv, hcnt, hpv, hpay]

/-- Committing the held byte is the next turn of the loop of `CrcPayload` (42_crc_engine.md R165). -/
theorem committed_eq_crcRun (r : Byte) :
    crcByte (if s.x.cnt = 0 then s.x.hold else s.x.crc) s.x.hold s.cfg.poly =
      crcRun s.cfg.poly 0 r (s.x.pay ++ [s.x.hold]) := by
  have hseed : s.x.cnt = 0 ↔ (0 + s.x.pay.length) % 8 = 0 := by
    rw [Nat.zero_add, ← hforms.count, Fin.ext_iff]
    rfl
  rw [crcRun_snoc]
  by_cases hcnt : s.x.cnt = 0
  · rw [if_pos hcnt, if_pos (hseed.mp hcnt)]
  · rw [if_neg hcnt, if_neg (hcnt ∘ hseed.mpr)]
    cases hpay : s.x.pay with
    | nil => exact absurd (hseed.mpr (by rw [hpay]; rfl)) hcnt
    | cons b rest => rw [hforms.remainder b rest hpay, hpay, crcRun_reseeds _ rfl b r (by simp)]

/-- A literal is taken in both forms alike. -/
theorem takeLiteral_formsAgree (d : Byte) : FormsAgree (takeLiteral s d) := by
  rw [takeLiteral_eq]
  cases hhv : s.x.hv with
  | false =>
    obtain ⟨hacc, hpay⟩ := hforms.empty hhv
    exact ⟨nofun, fun _ => by simp [hacc, hpay], hforms.committed, hforms.count, hforms.remainder⟩
  | true =>
    refine ⟨nofun, fun _ => ?_, ?_, ?_, fun b rest _ => committed_eq_crcRun hforms b⟩
    · simp [hforms.held hhv]
    · simp
    · simp [Fin.val_add, hforms.count]

/-- What a stop tag returns, computed from the one form or the other (41_extractor.md R142, `stop`). -/
theorem frameResult_eq_registerResult :
    frameResult s.cfg.poly s.x.acc = registerResult s.cfg.poly s.x := by
  unfold registerResult
  cases hhv : s.x.hv with
  | false =>
    obtain ⟨hacc, -⟩ := hforms.empty hhv
    rw [hacc]
    rfl
  | true =>
    rw [hforms.held hhv, frameResult_snoc, hforms.committed]
    cases hpay : s.x.pay with
    | nil => rfl
    | cons b rest => rw [crcPayload_cons, ← hpay, ← hforms.remainder b rest hpay]; simp [hpay]

end Forms

/-- The four symbols that end a scan (41_extractor.md R125, R126, R129, R131). -/
def EndsScan (sym : Symbol) : Prop := sym = .hEnd ∨ sym = .fStop ∨ sym = .fEnd ∨ sym = .eEnd

/-- The symbols that end a poll leave the scratch registers (log 21). -/
theorem symbolAction_keepsScratch {s : State} {sym : Symbol} (hends : EndsScan sym) :
    (symbolAction sym s).x.st = s.x.st ∧ (symbolAction sym s).x.cur = s.x.cur ∧
      (symbolAction sym s).x.acc = s.x.acc ∧ RegisterFormUnchanged s (symbolAction sym s) := by
  rcases hends with rfl | rfl | rfl | rfl
  · rw [show symbolAction .hEnd s = _ from actHEnd_eq s]
    exact ⟨rfl, rfl, rfl, rfl, rfl, rfl, rfl, rfl, rfl⟩
  · rw [show symbolAction .fStop s = _ from actFStop_eq s]
    exact ⟨rfl, rfl, rfl, rfl, rfl, rfl, rfl, rfl, rfl⟩
  all_goals exact ⟨rfl, rfl, rfl, rfl, rfl, rfl, rfl, rfl, rfl⟩

/-- No symbol brings the two forms apart. -/
theorem symbolAction_formsAgree {s : State} {sym : Symbol} (hs : symbolAt s = some sym)
    (hforms : FormsAgree s) : FormsAgree (symbolAction sym s) := by
  have hcfg := (symbolAction_sameOutside hs).cfg
  have hend (h : EndsScan sym) : FormsAgree (symbolAction sym s) := by
    obtain ⟨-, -, hacc, hreg⟩ := symbolAction_keepsScratch (s := s) h
    exact formsAgree_of_unchanged hforms hcfg hacc hreg
  cases sym with
  | hStart => exact formsAgree_of_cleared rfl rfl rfl rfl rfl
  | hSkip d => exact formsAgree_of_unchanged hforms rfl rfl ⟨rfl, rfl, rfl, rfl, rfl, rfl⟩
  | hEnd => exact hend (by simp [EndsScan])
  | fEsc => exact formsAgree_of_unchanged hforms rfl rfl ⟨rfl, rfl, rfl, rfl, rfl, rfl⟩
  | fStop => exact hend (by simp [EndsScan])
  | fStart => exact formsAgree_of_cleared rfl rfl rfl rfl rfl
  | fData d =>
    exact formsAgree_of_unchanged (takeLiteral_formsAgree hforms d) rfl rfl
      ⟨rfl, rfl, rfl, rfl, rfl, rfl⟩
  | fEnd => exact hend (by simp [EndsScan])
  | eLit d =>
    exact formsAgree_of_unchanged (takeLiteral_formsAgree hforms d) rfl rfl
      ⟨rfl, rfl, rfl, rfl, rfl, rfl⟩
  | eEnd => exact hend (by simp [EndsScan])

/-! ### A scan in order -/

/-- Dropping the bytes before a start tag and anchoring on it puts the scan in order (41_extractor.md
R124, R132). -/
theorem anchor_scanOk {s u : State} (hread : s.ibRead s.x.cur = some s.cfg.start)
    (hcfg : u.cfg = s.cfg) (hib : u.ib = s.ib.drop s.x.cur) : ScanOk (anchor u) where
  cursor := by
    have hlt := cur_lt_of_ibRead hread
    change 1 ≤ u.ib.length
    rw [hib, List.length_drop]
    omega
  hunting := nofun
  anchored _ := by
    change 1 ≤ 1 ∧ u.ib.head? = some u.cfg.start
    rw [hib, hcfg, List.head?_drop]
    exact ⟨le_rfl, hread⟩
  forms := formsAgree_of_cleared rfl rfl rfl rfl rfl

/-- Reading one byte behind the anchor keeps the scan in order (41_extractor.md R127, R128, R130). -/
theorem scanOk_of_read {s t : State} {b : Byte} (hok : ScanOk s) (hst : s.x.st ≠ .hunt)
    (hread : s.ibRead s.x.cur = some b) (hcfg : t.cfg = s.cfg) (hib : t.ib = s.ib)
    (hcur : t.x.cur = s.x.cur + 1) (hst' : t.x.st ≠ .hunt) (hforms : FormsAgree t) : ScanOk t where
  cursor := by
    rw [hcur, hib]
    exact cur_lt_of_ibRead hread
  hunting h := absurd h hst'
  anchored _ := by
    rw [hcur, hib, hcfg]
    exact ⟨Nat.le_add_left 1 _, (hok.anchored hst).2⟩
  forms := hforms

/-- Skipping a byte that is no start tag keeps the scan in order (41_extractor.md R123). -/
theorem actHSkip_scanOk {s : State} {d : Byte} (hok : ScanOk s) (hst : s.x.st = .hunt)
    (hread : s.ibRead s.x.cur = some d) (hstart : d ≠ s.cfg.start) (hforms : FormsAgree (actHSkip s)) :
    ScanOk (actHSkip s) where
  cursor := cur_lt_of_ibRead hread
  hunting _ := by
    change s.cfg.start ∉ s.ib.take (s.x.cur + 1)
    rw [List.take_add_one, show s.ib[s.x.cur]? = some d from hread, List.mem_append, not_or]
    exact ⟨hok.hunting hst, by simpa using hstart.symm⟩
  anchored h := absurd hst h
  forms := hforms

/-- A symbol ends the scan or leaves it in order. -/
theorem symbolAction_scanInv {s : State} {sym : Symbol} (hs : symbolAt s = some sym) (hok : ScanOk s) :
    ScanInv (symbolAction sym s) := by
  intro hbusy
  have hforms := symbolAction_formsAgree hs hok.forms
  cases standsAt_of_symbolAt hs with
  | hStart hst hread => exact anchor_scanOk hread (by rw [dropGarbage_eq]) (by rw [dropGarbage_eq])
  | hSkip hst hread hstart => exact actHSkip_scanOk hok hst hread hstart hforms
  | hEnd => cases hbusy
  | fEsc hst hread => exact scanOk_of_read hok (by simp [hst]) hread rfl rfl rfl nofun hforms
  | fStop => cases hbusy
  | fStart hst hread => exact anchor_scanOk hread rfl rfl
  | @fData d hst hread =>
    obtain ⟨-, hcur, hsame, -, -, hib⟩ := advance_takeLiteral_accumulates s d
    exact scanOk_of_read hok (by simp [hst]) hread (symbolAction_sameOutside hs).cfg hib hcur
      (by simp [symbolAction, actFData, hsame, hst]) hforms
  | fEnd => cases hbusy
  | @eLit d hst hread =>
    obtain ⟨-, hcur, -, -, -, hib⟩ := advance_takeLiteral_accumulates s d
    exact scanOk_of_read hok (by simp [hst]) hread (symbolAction_sameOutside hs).cfg hib hcur nofun
      hforms
  | eEnd => cases hbusy

/-- What an agent can invoke leaves no scan under way where there was none (20_memory.md R60, log 4). -/
theorem exec_call_not_busy {s t : State} {cfg : Config} {c : Call} {i : Instr}
    (hdecode : decodeCall cfg c = .ok i) (hbusy : s.x.busy = false) (hexec : exec i s = .next t) :
    t.x.busy = false := by
  rcases decodeCall_cases hdecode with ⟨data, last, rfl⟩ | ⟨p, -, rfl⟩ | rfl | ⟨data, rfl⟩
  · obtain rfl := exec_frmByte_next hexec
    rwa [frameByte_x]
  · obtain ⟨-, rfl⟩ := exec_frmEncode_next hexec
    obtain ⟨-, hx, -⟩ := frameAll_frame s p
    rwa [hx]
  · obtain rfl := exec_extPoll_next hexec
    exact (poll_ends s).ended
  · obtain ⟨rfl, -⟩ := exec_ibAppend_next hexec
    exact hbusy

end Sys2Proof.Machine

namespace Sys2Proof.Proofs

open Sys2Proof.Machine Sys2Proof.Safety

/-- Settles O53: each symbol of an open scan keeps it in order or ends it, and a step without one opens
none. -/
theorem stepKeepsTheScanInOrder : Obligations.StepKeepsTheScanInOrder := by
  intro s t hinv hstep
  obtain ⟨-, ⟨hbusy, sym, hsym, rfl⟩ | ⟨-, -, rfl⟩ | ⟨hbusy, c, rest, i, -, hdecode, hexec⟩⟩ :=
    step_cases hstep
  · exact symbolAction_scanInv hsym (hinv hbusy)
  · exact hinv
  · intro hopen
    rw [exec_call_not_busy (s := { s with agenda := rest }) hdecode hbusy hexec] at hopen
    cases hopen

end Sys2Proof.Proofs

/-! ## The endings of a scan and its register form (41_extractor.md) -/

namespace Sys2Proof.Machine

open Sys2Proof.Safety

/-- With at most one literal there is no payload (41_extractor.md R135, decision D6). -/
theorem frameResult_of_length_le_one (poly : Byte) {acc : List Byte} (hacc : acc.length ≤ 1) :
    frameResult poly acc = { complete := true, valid := false, payload := [] } := by
  match acc, hacc with
  | [], _ => rfl
  | [_], _ => rfl

theorem resultOk_of_complete {r : Result} (h : r.complete = true) : ResultOk r := fun hincomplete => by
  rw [h] at hincomplete
  cases hincomplete

theorem resultOk_incomplete : ResultOk Result.incomplete := fun _ => ⟨rfl, rfl⟩

/-- A coded result is not the code `01` (30_encoding.md R86). -/
theorem status_ne_of_resultOk {r : Result} (h : ResultOk r) : r.status ≠ 0b01#2 := by
  unfold Result.status
  cases hcomplete : r.complete with
  | false => rw [(h hcomplete).1]; decide
  | true => cases r.valid <;> decide

/-- A symbol writes the result only where it ends the scan, and then a coded one (41_extractor.md
R137). -/
theorem symbolAction_resultOk {s : State} (sym : Symbol) (hok : ResultOk s.x.res) :
    ResultOk (symbolAction sym s).x.res := by
  cases sym with
  | hStart => rw [show symbolAction .hStart s = _ from actHStart_eq s]; exact hok
  | hSkip => exact hok
  | hEnd => exact resultOk_incomplete
  | fEsc => exact hok
  | fStop => exact resultOk_of_complete (frameResult_complete _ _)
  | fStart => exact hok
  | fData d =>
    rw [show symbolAction (.fData d) s = advance (takeLiteral s d) from rfl, takeLiteral_eq]
    exact hok
  | fEnd => exact resultOk_incomplete
  | eLit d =>
    rw [show symbolAction (.eLit d) s = (advance (takeLiteral s d)).setSt .frame from rfl,
      takeLiteral_eq]
    exact hok
  | eEnd => exact resultOk_incomplete

/-- So does a poll, whatever the result before. -/
theorem poll_resultOk {s : State} (hok : ResultOk s.x.res) : ResultOk (poll s).x.res :=
  scanLoop_induct (P := fun t => ResultOk t.x.res) (fun _ sym _ _ h => symbolAction_resultOk sym h) _
    (show ResultOk (beginScan s).x.res from hok)

/-- Four symbols end a scan; the others go on with it (41_extractor.md R123 to R132). -/
theorem symbolAction_busy_of_not_end {s : State} {sym : Symbol} (hends : ¬EndsScan sym) :
    (symbolAction sym s).x.busy = s.x.busy := by
  cases sym with
  | hStart => rw [show symbolAction .hStart s = _ from actHStart_eq s]
  | hSkip => rfl
  | fEsc => rfl
  | fStart => rfl
  | fData d =>
    obtain ⟨-, -, -, -, ⟨hbusy, -⟩, -⟩ := advance_takeLiteral_accumulates s d
    exact hbusy
  | eLit d =>
    obtain ⟨-, -, -, -, ⟨hbusy, -⟩, -⟩ := advance_takeLiteral_accumulates s d
    exact hbusy
  | hEnd | fStop | fEnd | eEnd => simp [EndsScan] at hends

theorem symbolAction_not_busy_of_end {s : State} {sym : Symbol} (hends : EndsScan sym) :
    (symbolAction sym s).x.busy = false := by
  rcases hends with rfl | rfl | rfl | rfl <;> rfl

/-- The two forms agree, and where the scan ended with a frame its result is the register form's. -/
structure FormsGiveResult (poly : Byte) (s : State) : Prop where
  poly_eq : s.cfg.poly = poly
  forms : FormsAgree s
  result : s.x.busy = false → s.x.res.complete = true → s.x.res = registerResult poly s.x

/-- `F.STOP` alone ends a scan with a frame, and reads its result off either form. -/
theorem symbolAction_formsGiveResult {poly : Byte} {s : State} {sym : Symbol} (hbusy : s.x.busy = true)
    (hs : symbolAt s = some sym) (h : FormsGiveResult poly s) :
    FormsGiveResult poly (symbolAction sym s) := by
  obtain ⟨rfl, hforms, -⟩ := h
  have hcfg := (symbolAction_sameOutside hs).cfg
  refine ⟨by rw [hcfg], symbolAction_formsAgree hs hforms, fun hended hcomplete => ?_⟩
  by_cases hends : EndsScan sym
  · rcases hends with rfl | rfl | rfl | rfl
    · cases hcomplete
    · rw [show symbolAction .fStop s = _ from actFStop_eq s]
      exact frameResult_eq_registerResult hforms
    · cases hcomplete
    · cases hcomplete
  · rw [symbolAction_busy_of_not_end hends, hbusy] at hended
    cases hended

end Sys2Proof.Machine

namespace Sys2Proof.Proofs

open Sys2Proof.Machine Sys2Proof.Safety

/-- Settles O21: both symbols take the literal, and both start tags clear the form on anchoring. -/
theorem literalsMoveTheHeldByte : Obligations.LiteralsMoveTheHeldByte := by
  refine ⟨fun s t d h => ?_, fun s t h => ?_⟩
  · have hx : t.x.hold = (takeLiteral s d).x.hold ∧ t.x.hv = (takeLiteral s d).x.hv ∧
        t.x.crc = (takeLiteral s d).x.crc ∧ t.x.pay = (takeLiteral s d).x.pay ∧
        t.x.pv = (takeLiteral s d).x.pv ∧ t.x.cnt = (takeLiteral s d).x.cnt := by
      rcases h with h | h
      · obtain ⟨-, rfl⟩ := exec_symbol_eq_next (sym := .fData d).mp h
        exact ⟨rfl, rfl, rfl, rfl, rfl, rfl⟩
      · obtain ⟨-, rfl⟩ := exec_symbol_eq_next (sym := .eLit d).mp h
        exact ⟨rfl, rfl, rfl, rfl, rfl, rfl⟩
    obtain ⟨hhold, hhv, hcrc, hpay, hpv, hcnt⟩ := hx
    rw [takeLiteral_eq] at hhold hhv hcrc hpay hpv hcnt
    refine ⟨hhold, hhv, fun hheld => ?_, fun hheld => ?_⟩
    · simp only [hheld, Bool.false_eq_true, if_false] at hcrc hpay hpv hcnt
      exact ⟨hcrc, hpay, hpv, hcnt⟩
    · simp only [hheld, if_true] at hcrc hpay hpv hcnt
      exact ⟨hcrc, hpay, hpv, by rw [hcnt, Fin.val_add]; rfl⟩
  · rcases h with h | h
    · obtain ⟨-, rfl⟩ := exec_symbol_eq_next (sym := .hStart).mp h
      rw [show symbolAction .hStart s = _ from actHStart_eq s]
      exact ⟨rfl, rfl, rfl, rfl, rfl, rfl⟩
    · obtain ⟨-, rfl⟩ := exec_symbol_eq_next (sym := .fStart).mp h
      exact ⟨rfl, rfl, rfl, rfl, rfl, rfl⟩

/-- Settles O24: the action drops the bytes up to the cursor, which is the end. -/
theorem huntEndDropsTheGarbage : Obligations.HuntEndDropsTheGarbage := by
  intro s hst hend
  have hs : symbolAt s = some .hEnd := symbolAt_eq_of_end hst hend (decodeSymbol_hunt_end _)
  have haction : symbolAction .hEnd s = _ := actHEnd_eq s
  refine ⟨_, exec_of_symbolAt hs, fun a => ?_, rfl, rfl, ?_, dropGarbage_diag s,
    symbolAction_othersUnchanged hs⟩ <;> rw [haction]
  · exact List.getElem?_eq_none (by simp [hend, State.ibLen])
  · by_cases hgarbage : s.ibLen = 0 <;> simp [hend, hgarbage, Nat.pos_iff_ne_zero]

/-- Settles O26: without a payload the result, its event and its report are fixed. -/
theorem stopTagOfShortFrame : Obligations.StopTagOfShortFrame := by
  intro s hst hread hdistinct hacc
  obtain ⟨-, -, hesc⟩ := s.cfg.tagsDistinct_iff.mp hdistinct
  have hs : symbolAt s = some .fStop :=
    symbolAt_eq_of_byte hst hread (decodeSymbol_frame_stop _ hesc)
  have haction : symbolAction .fStop s = _ := actFStop_eq s
  rw [frameResult_of_length_le_one _ hacc] at haction
  refine ⟨_, exec_of_symbolAt hs, ibRead_of_ib_eq_drop ?_, ?_, ?_, ?_, ?_,
    symbolAction_othersUnchanged hs⟩ <;> rw [haction]
  · rfl
  · cases hsink : s.cfg.diagSink <;> simp

/-- Settles O27: none of the four endings writes a scratch register. -/
theorem endOfPollKeepsTheScratch : Obligations.EndOfPollKeepsTheScratch := by
  intro s t i hi h
  obtain ⟨sym, hsym, rfl⟩ : ∃ sym : Symbol, EndsScan sym ∧ i = sym.instr := by
    rcases hi with rfl | rfl | rfl | rfl
    · exact ⟨.hEnd, by simp [EndsScan], rfl⟩
    · exact ⟨.fStop, by simp [EndsScan], rfl⟩
    · exact ⟨.fEnd, by simp [EndsScan], rfl⟩
    · exact ⟨.eEnd, by simp [EndsScan], rfl⟩
  obtain ⟨-, rfl⟩ := exec_symbol_eq_next.mp h
  exact symbolAction_keepsScratch hsym

/-- Settles O28: the decoder is a function, so the symbol at the cursor is one and meets its condition,
and no other does. -/
theorem exactlyOneSymbolRuns : Obligations.ExactlyOneSymbolRuns := by
  intro s hcur
  obtain ⟨sym, hs⟩ := Option.isSome_iff_exists.mp ((symbolAt_isSome s).mpr hcur)
  refine ⟨sym, ⟨_, exec_of_symbolAt hs⟩, fun other hother => ?_⟩
  rw [exec_instr, onSymbol, if_neg]
  rw [hs]
  exact fun h => hother (Option.some.inj h).symm

/-- Settles O44: the poll starts with both forms empty, each symbol keeps them in agreement, and the
stop tag reads its result off either. -/
theorem registerFormComputesTheResult : Obligations.RegisterFormComputesTheResult := by
  intro s t hpoll hcomplete
  obtain rfl := exec_extPoll_next hpoll
  have hbegin : FormsGiveResult s.cfg.poly (beginScan s) :=
    ⟨rfl, formsAgree_of_cleared rfl rfl rfl rfl rfl, nofun⟩
  have hdone : FormsGiveResult s.cfg.poly (poll s) :=
    scanLoop_induct (fun _ _ => symbolAction_formsGiveResult) _ hbegin
  exact hdone.result (poll_ends s).ended hcomplete

end Sys2Proof.Proofs

/-! ## The scan over the bytes alone, one byte at a time (Wire.scan) -/

namespace Sys2Proof.Wire

open Sys2Proof.Machine

section Scan

variable (c : Config) (kept acc : List Byte) (evs : List Event) (bs : List Byte) {b : Byte}

@[simp] theorem scan_hunt_nil :
    scan c .hunt kept acc evs [] =
      { rest := []
        res := Result.incomplete
        events := (if kept.isEmpty then evs else evs ++ [.resyncDrop]) ++ [.incomplete] } := by
  rw [scan]

@[simp] theorem scan_hunt_start :
    scan c .hunt kept acc evs (c.start :: bs) =
      scan c .frame [c.start] [] (if kept.isEmpty then evs else evs ++ [.resyncDrop]) bs := by
  rw [scan, if_pos rfl]

theorem scan_hunt_of_ne_start (hstart : b ≠ c.start) :
    scan c .hunt kept acc evs (b :: bs) = scan c .hunt (kept ++ [b]) acc evs bs := by
  rw [scan, if_neg hstart]

@[simp] theorem scan_frame_nil :
    scan c .frame kept acc evs [] =
      { rest := kept, res := Result.incomplete, events := evs ++ [.incomplete] } := by
  rw [scan]

@[simp] theorem scan_frame_esc :
    scan c .frame kept acc evs (c.esc :: bs) = scan c .escd (kept ++ [c.esc]) acc evs bs := by
  rw [scan, if_pos rfl]

theorem scan_frame_stop (hesc : c.stop ≠ c.esc) :
    scan c .frame kept acc evs (c.stop :: bs) =
      { rest := bs
        res := frameResult c.poly acc
        events := evs ++ frameEvent (frameResult c.poly acc) } := by
  rw [scan, if_neg hesc, if_pos rfl]

theorem scan_frame_start (hesc : c.start ≠ c.esc) (hstop : c.start ≠ c.stop) :
    scan c .frame kept acc evs (c.start :: bs) =
      scan c .frame [c.start] [] (evs ++ [.resyncRestart]) bs := by
  rw [scan, if_neg hesc, if_neg hstop, if_pos rfl]

theorem scan_frame_of_not_tag (htag : c.isTag b = false) :
    scan c .frame kept acc evs (b :: bs) = scan c .frame (kept ++ [b]) (acc ++ [b]) evs bs := by
  obtain ⟨hstart, hstop, hesc⟩ := c.isTag_eq_false_iff.mp htag
  rw [scan, if_neg hesc, if_neg hstop, if_neg hstart]

@[simp] theorem scan_escd_nil :
    scan c .escd kept acc evs [] =
      { rest := kept, res := Result.incomplete, events := evs ++ [.incomplete] } := by
  rw [scan]

@[simp] theorem scan_escd_cons (b : Byte) :
    scan c .escd kept acc evs (b :: bs) = scan c .frame (kept ++ [b]) (acc ++ [b]) evs bs := by
  rw [scan]

end Scan

end Sys2Proof.Wire

/-! ## The poll and the scan over the bytes (41_extractor.md sections 1 and 6) -/

namespace Sys2Proof.Machine

open Sys2Proof.Safety

/-- The scan to its end, symbol by symbol: at the end of the bytes the symbol is one that ends it
(41_extractor.md R139). -/
theorem scanLoop_to_end_induct {motive : State → State → Prop}
    (hlast : ∀ s sym, s.x.busy = true → symbolAt s = some sym → EndsScan sym →
      motive s (symbolAction sym s))
    (hnext : ∀ s sym t, s.x.busy = true → symbolAt s = some sym → ¬EndsScan sym →
      ScanReadsByte s (symbolAction sym s) → motive (symbolAction sym s) t → motive s t)
    {n : Nat} {s : State} (hleft : s.ibLen = s.x.cur + n) (hbusy : s.x.busy = true) :
    motive s (scanLoop (n + 1) s) := by
  induction n generalizing s with
  | zero =>
    have hs := symbolAt_of_end s hleft.symm
    rw [scanLoop_busy s 0 hbusy, scanLoop_zero, scanStep_of_symbol s hs]
    refine hlast s _ hbusy hs ?_
    cases s.x.st <;> simp [EndsScan]
  | succ n ih =>
    have hcur : s.x.cur ≤ s.ibLen := by omega
    obtain ⟨sym, hs⟩ := Option.isSome_iff_exists.mp ((symbolAt_isSome s).mpr hcur)
    rw [scanLoop_busy s (n + 1) hbusy, scanStep_of_symbol s hs]
    by_cases hends : EndsScan sym
    · rw [scanLoop_done _ _ (symbolAction_not_busy_of_end hends)]
      exact hlast s sym hbusy hs hends
    · have hstill := (symbolAction_busy_of_not_end (s := s) hends).trans hbusy
      rcases symbolAction_ends_or_reads hcur sym with hended | hreads
      · rw [hended.ended] at hstill
        cases hstill
      · have hread := hreads.read
        exact hnext s sym _ hbusy hs hends hreads (ih (by omega) hstill)

/-- What the scan over the bytes answers from where the scan of a state stands: the bytes before the
cursor are those kept. -/
def standingAnswer (s : State) : Wire.Answer :=
  Wire.scan s.cfg s.x.st (s.ib.take s.x.cur) s.x.acc s.x.events (s.ib.drop s.x.cur)

/-- What a poll that left this state answered. -/
def answerOf (t : State) : Wire.Answer := { rest := t.ib, res := t.x.res, events := t.x.events }

section Read

variable {s : State} {b : Byte} (hread : s.ibRead s.x.cur = some b)
include hread

theorem drop_cur_of_ibRead : s.ib.drop s.x.cur = b :: s.ib.drop (s.x.cur + 1) := by
  obtain ⟨hlt, hget⟩ := List.getElem?_eq_some_iff.mp hread
  rw [List.drop_eq_getElem_cons hlt, hget]

theorem take_cur_of_ibRead : s.ib.take (s.x.cur + 1) = s.ib.take s.x.cur ++ [b] := by
  rw [List.take_add_one, show s.ib[s.x.cur]? = some b from hread]
  rfl

/-- Garbage is dropped exactly where the cursor is not at the front (41_extractor.md R124). -/
theorem isEmpty_take_cur : (s.ib.take s.x.cur).isEmpty = decide (s.x.cur = 0) := by
  have hlt := cur_lt_of_ibRead hread
  rw [Bool.eq_iff_iff, List.isEmpty_iff, List.take_eq_nil_iff, decide_eq_true_iff, or_iff_left_iff_imp]
  rintro hnil
  rw [hnil] at hlt
  cases hlt

end Read

/-- After a byte is read, the scan over the bytes stands one byte further. -/
theorem standingAnswer_of_read {s t : State} {b : Byte} (hread : s.ibRead s.x.cur = some b)
    (hcfg : t.cfg = s.cfg) (hib : t.ib = s.ib) (hcur : t.x.cur = s.x.cur + 1) :
    standingAnswer t =
      Wire.scan s.cfg t.x.st (s.ib.take s.x.cur ++ [b]) t.x.acc t.x.events
        (s.ib.drop (s.x.cur + 1)) := by
  rw [standingAnswer, hcfg, hib, hcur, take_cur_of_ibRead hread]

/-- A symbol that goes on with the scan goes on with the scan over the bytes. -/
theorem symbolAction_standingAnswer {s : State} {sym : Symbol} (hs : symbolAt s = some sym)
    (hends : ¬EndsScan sym) : standingAnswer (symbolAction sym s) = standingAnswer s := by
  have hcfg := (symbolAction_sameOutside hs).cfg
  cases standsAt_of_symbolAt hs with
  | hStart hst hread =>
    rw [show symbolAction .hStart s = _ from actHStart_eq s]
    simp only [standingAnswer, hst, drop_cur_of_ibRead hread, Wire.scan_hunt_start,
      isEmpty_take_cur hread, decide_eq_true_eq]
    rfl
  | hSkip hst hread hstart =>
    rw [standingAnswer_of_read hread hcfg rfl rfl, standingAnswer, hst, drop_cur_of_ibRead hread,
      Wire.scan_hunt_of_ne_start _ _ _ _ _ hstart]
    exact congrArg (Wire.scan _ · _ _ _ _) hst
  | fEsc hst hread =>
    rw [standingAnswer_of_read hread hcfg rfl rfl, standingAnswer, hst, drop_cur_of_ibRead hread,
      Wire.scan_frame_esc]
    rfl
  | fStart hst hread hesc hstop =>
    rw [show symbolAction .fStart s = _ from actFStart_eq s]
    simp only [standingAnswer, hst, drop_cur_of_ibRead hread, Wire.scan_frame_start _ _ _ _ _ hesc hstop]
    rfl
  | @fData d hst hread htag =>
    obtain ⟨hacc, hcur, hsame, hevents, -, hib⟩ := advance_takeLiteral_accumulates s d
    rw [standingAnswer_of_read hread hcfg hib hcur, standingAnswer, hst, drop_cur_of_ibRead hread,
      Wire.scan_frame_of_not_tag _ _ _ _ _ htag]
    simp only [symbolAction, actFData, hacc, hsame, hevents, hst]
  | @eLit d hst hread =>
    obtain ⟨hacc, hcur, -, hevents, -, hib⟩ := advance_takeLiteral_accumulates s d
    rw [standingAnswer_of_read hread hcfg hib hcur, standingAnswer, hst, drop_cur_of_ibRead hread,
      Wire.scan_escd_cons]
    simp only [symbolAction, actELit, State.setSt_x, hacc, hevents]
  | hEnd | fStop | fEnd | eEnd => simp [EndsScan] at hends

/-- At the end of the bytes nothing is left to read, and all of them are kept. -/
theorem drop_take_of_end {s : State} (hend : s.x.cur = s.ibLen) :
    s.ib.drop s.x.cur = [] ∧ s.ib.take s.x.cur = s.ib := by
  rw [hend, State.ibLen, List.drop_length, List.take_length]
  exact ⟨rfl, rfl⟩

/-- A symbol that ends the scan leaves what the scan over the bytes answers. -/
theorem symbolAction_answerOf {s : State} {sym : Symbol} (hs : symbolAt s = some sym)
    (hends : EndsScan sym) : answerOf (symbolAction sym s) = standingAnswer s := by
  cases standsAt_of_symbolAt hs with
  | hEnd hst hend =>
    obtain ⟨hdrop, htake⟩ := drop_take_of_end hend
    have hempty : s.x.cur = 0 ↔ s.ib = [] := by rw [hend]; exact List.length_eq_zero_iff
    rw [show symbolAction .hEnd s = _ from actHEnd_eq s, standingAnswer, hst, hdrop, htake,
      Wire.scan_hunt_nil]
    simp only [answerOf, hempty, List.isEmpty_iff]
  | fStop hst hread hesc =>
    rw [show symbolAction .fStop s = _ from actFStop_eq s, standingAnswer, hst,
      drop_cur_of_ibRead hread, Wire.scan_frame_stop _ _ _ _ _ hesc]
    rfl
  | fEnd hst hend =>
    obtain ⟨hdrop, htake⟩ := drop_take_of_end hend
    rw [standingAnswer, hst, hdrop, htake, Wire.scan_frame_nil]
    rfl
  | eEnd hst hend =>
    obtain ⟨hdrop, htake⟩ := drop_take_of_end hend
    rw [standingAnswer, hst, hdrop, htake, Wire.scan_escd_nil]
    rfl
  | hStart | hSkip | fEsc | fStart | fData | eLit => simp [EndsScan] at hends

/-- A poll answers what the scan over the bytes answers (41_extractor.md R120, R140). -/
theorem answerOf_poll (s : State) : answerOf (poll s) = Wire.answer s.cfg s.ib := by
  have hloop : answerOf (poll s) = standingAnswer (beginScan s) :=
    scanLoop_to_end_induct (motive := fun s t => answerOf t = standingAnswer s)
      (fun _ _ _ => symbolAction_answerOf)
      (fun _ _ _ _ hs hends _ hrest => hrest.trans (symbolAction_standingAnswer hs hends))
      (Nat.zero_add _).symm rfl
  exact hloop

/-- Every poll by the fields of its answer. -/
theorem exec_extPoll_answer {s t : State} (h : exec .extPoll s = .next t) :
    t.ib = (Wire.answer s.cfg s.ib).rest ∧ t.x.res = (Wire.answer s.cfg s.ib).res ∧
      t.x.events = (Wire.answer s.cfg s.ib).events := by
  obtain rfl := exec_extPoll_next h
  rw [← answerOf_poll]
  exact ⟨rfl, rfl, rfl⟩

/-- A poll completes with the answer of the scan over the bytes. -/
theorem exec_extPoll_of_answer {s : State} {a : Wire.Answer} (ha : Wire.answer s.cfg s.ib = a) :
    ∃ t, exec .extPoll s = .next t ∧ t.ib = a.rest ∧ t.x.res = a.res ∧ t.x.events = a.events := by
  subst ha
  exact ⟨poll s, rfl, exec_extPoll_answer rfl⟩

/-! ### The poll as a run of steps -/

/-- A step of an open scan runs the symbol at the cursor (41_extractor.md R122). -/
theorem step_of_symbolAt {s : State} {sym : Symbol} (hdistinct : s.cfg.tagsDistinct = true)
    (hbusy : s.x.busy = true) (hs : symbolAt s = some sym) : step s = exec sym.instr s := by
  simp [step, fetch, fetchSymbol, hdistinct, hbusy, hs]

theorem coreRun_succ (M : Host.Core) {s t : M.State} (hstep : M.step s = .next t) (k : Nat) :
    M.run (k + 1) s = M.run k t := by
  rw [Host.Core.run, hstep]

/-- So many steps of the machine, at most one more than there are bytes to read, lead from `s` to `t`. -/
def RunsWithin (s t : State) : Prop :=
  ∃ n, 1 ≤ n ∧ n + s.x.cur ≤ s.ibLen + 1 ∧ Host.Core.run core n s = .next t

theorem step_next_of_symbolAt {s : State} {sym : Symbol} (hdistinct : s.cfg.tagsDistinct = true)
    (hbusy : s.x.busy = true) (hs : symbolAt s = some sym) : step s = .next (symbolAction sym s) :=
  (step_of_symbolAt hdistinct hbusy hs).trans (exec_of_symbolAt hs)

/-- The loop of a scan is a run of the machine (41_extractor.md R139). -/
theorem scanLoop_runsWithin {n : Nat} {s : State} (hleft : s.ibLen = s.x.cur + n)
    (hbusy : s.x.busy = true) (hdistinct : s.cfg.tagsDistinct = true) :
    RunsWithin s (scanLoop (n + 1) s) := by
  refine scanLoop_to_end_induct (motive := fun s t => s.cfg.tagsDistinct = true → RunsWithin s t)
    (fun s sym hbusy hs _ hdistinct => ?_) (fun s sym t hbusy hs _ hreads hrest hdistinct => ?_)
    hleft hbusy hdistinct
  · have hcur : s.x.cur ≤ s.ibLen := (symbolAt_isSome s).mp (Option.isSome_of_eq_some hs)
    exact ⟨1, le_rfl, by omega, coreRun_succ core (step_next_of_symbolAt hdistinct hbusy hs) 0⟩
  · obtain ⟨k, hone, hbound, hrun⟩ := hrest (by rwa [hreads.cfg])
    have hread := hreads.read
    exact ⟨k + 1, by omega, by omega,
      (coreRun_succ core (step_next_of_symbolAt hdistinct hbusy hs) k).trans hrun⟩

/-! ### The poll without a sink (60_exceptions.md R188) -/

/-- The loop commutes with every change of the state that its steps commute with. -/
theorem scanLoop_comm {change : State → State} (hbusy : ∀ s, (change s).x.busy = s.x.busy)
    (hstep : ∀ s, scanStep (change s) = change (scanStep s)) (n : Nat) (s : State) :
    scanLoop n (change s) = change (scanLoop n s) := by
  induction n generalizing s with
  | zero => rfl
  | succ n ih => rw [scanLoop, scanLoop, hbusy, hstep, ih, apply_ite change]

/-- The state with its diagnostic sink and the reports taken away. -/
def withoutSink (s : State) : State :=
  { s with cfg := { s.cfg with diagSink := false }, diag := [] }

theorem symbolAction_withoutSink (s : State) (sym : Symbol) :
    symbolAction sym (withoutSink s) = withoutSink (symbolAction sym s) := by
  cases sym with
  | hStart => simp only [symbolAction, actHStart_eq]; rfl
  | hEnd => simp only [symbolAction, actHEnd_eq]; rfl
  | fStop => simp [symbolAction, actFStop_eq, withoutSink]
  | fData d => simp only [symbolAction, actFData, takeLiteral_eq]; rfl
  | eLit d => simp only [symbolAction, actELit, takeLiteral_eq]; rfl
  | hSkip | fEsc | fStart | fEnd | eEnd => rfl

/-- What is left of a poll without its reports is the poll of what is left of the state. -/
theorem poll_withoutSink (s : State) : poll (withoutSink s) = withoutSink (poll s) := by
  refine scanLoop_comm (change := withoutSink) (fun _ => rfl) (fun t => ?_) _ (beginScan s)
  have hsame : symbolAt (withoutSink t) = symbolAt t := rfl
  unfold scanStep
  rw [hsame]
  cases symbolAt t with
  | none => rfl
  | some sym => exact symbolAction_withoutSink t sym

end Sys2Proof.Machine

namespace Sys2Proof.Proofs

open Sys2Proof.Machine Sys2Proof.Safety

/-- Settles O30: the poll's loop and the scan over the bytes go together symbol by symbol. -/
theorem pollMeetsTheByteScan : Obligations.PollMeetsTheByteScan := by
  intro s
  obtain ⟨hib, hres, hevents⟩ := exec_extPoll_answer (s := s) rfl
  obtain ⟨hcfg, hf, hob, hagenda⟩ := poll_sameOutside s
  exact ⟨poll s, rfl, hib, hres, hevents, (poll_ends s).ended,
    ⟨hf, fun _ => by rw [State.obRead, State.obRead, hob]⟩, hcfg, hagenda⟩

/-- Settles O29: each turn of the poll's loop is a step of the machine. -/
theorem pollIsTheRunOfItsSymbols : Obligations.PollIsTheRunOfItsSymbols := by
  intro s hdistinct
  obtain ⟨n, hone, hbound, hrun⟩ : RunsWithin (beginScan s) (poll s) :=
    scanLoop_runsWithin (Nat.zero_add _).symm rfl hdistinct
  exact ⟨rfl, rfl, rfl, rfl, n, poll s, hone, hbound, rfl, (poll_ends s).ended, hrun⟩

/-- Settles O32: the report is the only part of a poll that the sink touches. -/
theorem pollWithoutSinkReportsNothing : Obligations.PollWithoutSinkReportsNothing := by
  intro s t hsink hpoll
  obtain rfl := exec_extPoll_next hpoll
  have hsame : withoutSink (poll { s with cfg := { s.cfg with diagSink := true } }) =
      withoutSink (poll s) := by
    rw [← poll_withoutSink, ← poll_withoutSink]
    rfl
  refine ⟨?_, _, rfl, (congrArg State.x hsame :), (congrArg State.ib hsame :)⟩
  rw [(poll_ends s).diag, hsink]
  exact List.append_nil _

/-- Settles O35: the answer is a function of the configuration and the bytes. -/
theorem pollLearnsOnlyBufferAndConfiguration : Obligations.PollLearnsOnlyBufferAndConfiguration := by
  intro s s' t t' hcfg hib hpoll hpoll'
  obtain ⟨hrest, hres, hevents⟩ := exec_extPoll_answer hpoll
  obtain ⟨hrest', hres', hevents'⟩ := exec_extPoll_answer hpoll'
  rw [hrest, hres, hevents, hrest', hres', hevents', hcfg, hib]
  exact ⟨rfl, rfl, rfl⟩

end Sys2Proof.Proofs

/-! ## The steps of the machine and what every instruction keeps -/

namespace Sys2Proof.Machine

open Sys2Proof.Safety

/-- With no scan under way a step performs the next call (20_memory.md R60, log 3). -/
theorem step_of_call {s : State} {c : Call} {rest : List Call} {i : Instr}
    (hdistinct : s.cfg.tagsDistinct = true) (hbusy : s.x.busy = false) (hagenda : s.agenda = c :: rest)
    (hdecode : decodeCall s.cfg c = .ok i) : step s = exec i { s with agenda := rest } := by
  simp [step, fetch, fetchCall, hdistinct, hbusy, hagenda, hdecode]

theorem step_of_idle {s : State} (hdistinct : s.cfg.tagsDistinct = true) (hbusy : s.x.busy = false)
    (hagenda : s.agenda = []) : step s = .next s := by
  simp [step, fetch, fetchCall, hdistinct, hbusy, hagenda]

/-- A two-byte decoder input is its row's symbol (30_encoding.md R80). -/
theorem eq_instr_of_decode_wire {c : Config} {st : ScanState} {b : Byte} {eob : Bool} {i : Instr}
    (hdecode : decode c (.wire st) (bytes9 b eob) = .ok i) :
    i = (decodeSymbol c st (wireInput b eob)).instr := by
  simpa [decode, eq_comm] using hdecode

/-- No instruction writes a configuration constant (10_state.md R20, decision D15). -/
theorem exec_cfg {i : Instr} {s t : State} (h : exec i s = .next t) : t.cfg = s.cfg := by
  rcases instr_cases i with ⟨sym, rfl⟩ | ⟨data, last, rfl⟩ | ⟨p, rfl⟩ | rfl | ⟨b, rfl⟩ |
    ⟨u, bit, rfl⟩ | ⟨u, v, rfl⟩ | ⟨u, rfl⟩ | ⟨u, v, rfl⟩
  · obtain ⟨hs, rfl⟩ := exec_symbol_eq_next.mp h
    exact (symbolAction_sameOutside hs).cfg
  · obtain rfl := exec_frmByte_next h
    exact frameByte_cfg s data last
  · obtain ⟨-, rfl⟩ := exec_frmEncode_next h
    exact (frameAll_setUpUnchanged s p).1
  · obtain rfl := exec_extPoll_next h
    exact (poll_sameOutside s).cfg
  · obtain ⟨rfl, -⟩ := exec_ibAppend_next h
    rfl
  all_goals
    cases h
    exact State.setCrcReg_cfg s _ _

/-- The Framer's operations alone write OB, at its end (20_memory.md R57). -/
theorem exec_ob {i : Instr} {s t : State} (h : exec i s = .next t) : ∃ w, t.ob = s.ob ++ w := by
  rcases instr_cases i with ⟨sym, rfl⟩ | ⟨data, last, rfl⟩ | ⟨p, rfl⟩ | rfl | ⟨b, rfl⟩ |
    ⟨u, bit, rfl⟩ | ⟨u, v, rfl⟩ | ⟨u, rfl⟩ | ⟨u, v, rfl⟩
  · obtain ⟨hs, rfl⟩ := exec_symbol_eq_next.mp h
    exact ⟨[], by rw [(symbolAction_sameOutside hs).ob, List.append_nil]⟩
  · obtain rfl := exec_frmByte_next h
    exact ⟨_, frameByte_ob s data last⟩
  · obtain ⟨-, rfl⟩ := exec_frmEncode_next h
    exact frameAll_ob_grows s p
  · obtain rfl := exec_extPoll_next h
    exact ⟨[], by rw [(poll_sameOutside s).ob, List.append_nil]⟩
  · obtain ⟨rfl, -⟩ := exec_ibAppend_next h
    exact ⟨[], (List.append_nil _).symm⟩
  all_goals
    cases h
    exact ⟨[], by rw [List.append_nil]; exact State.setCrcReg_ob s _ _⟩

/-! ### What OB holds decides nothing (20_memory.md R57) -/

/-- The state with other bytes in front of those of OB. -/
def prependOb (w : List Byte) (s : State) : State := { s with ob := w ++ s.ob }

@[simp] theorem prependOb_cfg (w : List Byte) (s : State) : (prependOb w s).cfg = s.cfg := rfl
@[simp] theorem prependOb_f (w : List Byte) (s : State) : (prependOb w s).f = s.f := rfl

theorem emit_prependOb (w : List Byte) (s : State) (b : Byte) :
    (prependOb w s).emit b = prependOb w (s.emit b) := by
  simp [prependOb, State.emit]

theorem setCrcReg_prependOb (w : List Byte) (s : State) (u : CrcUnit) (v : Byte) :
    (prependOb w s).setCrcReg u v = prependOb w (s.setCrcReg u v) := by
  cases u <;> rfl

theorem crcReg_prependOb (w : List Byte) (s : State) (u : CrcUnit) :
    (prependOb w s).crcReg u = s.crcReg u := by
  cases u <;> rfl

theorem setPos_prependOb (w : List Byte) (s : State) (p : Fin 8) :
    (prependOb w s).setPos p = prependOb w (s.setPos p) := rfl

/-- `FRM.BYTE` emits behind what OB holds and reads none of it. -/
theorem frameByte_prependOb (w : List Byte) (s : State) (b : Byte) (last : Bool) :
    frameByte (prependOb w s) b last = prependOb w (frameByte s b last) := by
  have hopen : openBlock (prependOb w s) b = prependOb w (openBlock s b) := by
    simp only [openBlock, seedReg_eq, emit_prependOb, setCrcReg_prependOb, prependOb_f, prependOb_cfg,
      apply_ite (prependOb w)]
  have hescape (t : State) : escapeByte (prependOb w t) b = prependOb w (escapeByte t b) := by
    simp only [escapeByte, emit_prependOb, prependOb_cfg, apply_ite (prependOb w)]
  have hclose (t : State) :
      closeOrAdvance (prependOb w t) last = prependOb w (closeOrAdvance t last) := by
    simp only [closeOrAdvance, closeBlock, drainReg_eq, emit_prependOb, setCrcReg_prependOb,
      crcReg_prependOb, setPos_prependOb, prependOb_f, prependOb_cfg, apply_ite (prependOb w)]
  simp only [frameByte, feedReg_eq, hopen, hescape, hclose, emit_prependOb, setCrcReg_prependOb,
    crcReg_prependOb, prependOb_cfg]

theorem frameAll_prependOb (w : List Byte) (s : State) (p : List Byte) :
    frameAll (prependOb w s) p = prependOb w (frameAll s p) := by
  induction p generalizing s with
  | nil => rfl
  | cons b rest ih =>
    by_cases hrest : rest = []
    · subst hrest
      exact frameByte_prependOb w s b true
    · rw [frameAll_cons _ b hrest, frameAll_cons _ b hrest, frameByte_prependOb, ih]

theorem symbolAction_prependOb (w : List Byte) (s : State) (sym : Symbol) :
    symbolAction sym (prependOb w s) = prependOb w (symbolAction sym s) := by
  cases sym with
  | hStart => simp only [symbolAction, actHStart_eq]; rfl
  | hEnd => simp only [symbolAction, actHEnd_eq]; rfl
  | fStop => simp only [symbolAction, actFStop_eq]; rfl
  | fData d => simp only [symbolAction, actFData, takeLiteral_eq]; rfl
  | eLit d => simp only [symbolAction, actELit, takeLiteral_eq]; rfl
  | hSkip | fEsc | fStart | fEnd | eEnd => rfl

theorem symbolAt_prependOb (w : List Byte) (s : State) : symbolAt (prependOb w s) = symbolAt s := rfl

theorem poll_prependOb (w : List Byte) (s : State) : poll (prependOb w s) = prependOb w (poll s) := by
  refine scanLoop_comm (change := prependOb w) (fun _ => rfl) (fun t => ?_) _ (beginScan s)
  unfold scanStep
  rw [symbolAt_prependOb]
  cases symbolAt t with
  | none => rfl
  | some sym => exact symbolAction_prependOb w t sym

/-- An unbounded sink holds every state's OB (20_memory.md R57). -/
theorem withinSink_of_unbounded {t : State} (hcap : t.cfg.obCap = none) : withinSink t = .next t :=
  withinSink_eq_next.mpr ⟨rfl, by rw [hcap, fits_none]⟩

/-- With an unbounded sink every instruction does behind other bytes what it does without them. -/
theorem exec_prependOb (w : List Byte) {s : State} (hcap : s.cfg.obCap = none) (i : Instr) :
    exec i (prependOb w s) = andThen (exec i s) (fun t => .next (prependOb w t)) := by
  rcases instr_cases i with ⟨sym, rfl⟩ | ⟨data, last, rfl⟩ | ⟨p, rfl⟩ | rfl | ⟨b, rfl⟩ |
    ⟨u, bit, rfl⟩ | ⟨u, v, rfl⟩ | ⟨u, rfl⟩ | ⟨u, v, rfl⟩
  · rw [exec_instr, exec_instr, onSymbol, onSymbol, symbolAt_prependOb, symbolAction_prependOb]
    by_cases hs : symbolAt s = some sym
    · rw [if_pos hs, if_pos hs]; rfl
    · rw [if_neg hs, if_neg hs]; rfl
  · change withinSink _ = andThen (withinSink _) _
    rw [frameByte_prependOb, withinSink_of_unbounded (by simpa using hcap),
      withinSink_of_unbounded (by simpa using hcap)]
    rfl
  · by_cases hp : p = []
    · subst hp; rfl
    · have hkept : (frameAll s p).cfg.obCap = none := by rw [(frameAll_frame s p).1, hcap]
      rw [exec_frmEncode_of_ne_nil _ hp, exec_frmEncode_of_ne_nil _ hp, frameAll_prependOb,
        withinSink_of_unbounded hkept, withinSink_of_unbounded (t := prependOb w _) hkept]
      rfl
  · exact congrArg Host.Outcome.next (poll_prependOb w s)
  · change execIbAppend b _ = andThen (execIbAppend b s) _
    unfold execIbAppend
    by_cases hfits : fits s.cfg.ibCap (s.ibLen + 1) = true
    · rw [if_pos hfits]; exact if_pos hfits
    · rw [if_neg hfits]; exact if_neg hfits
  all_goals
    refine congrArg Host.Outcome.next ?_
    simp only [stepReg_eq, feedReg_eq, drainReg_eq, seedReg_eq, crcReg_prependOb, prependOb_cfg]
    exact setCrcReg_prependOb w s _ _

/-! ### The capacities and the result -/

/-- A memory that did not grow is within a capacity it was within. -/
theorem withinCapacity_of_le {s t : State} (hin : WithinCapacity s) (hcfg : t.cfg = s.cfg)
    (hib : t.ib.length ≤ s.ib.length) (hob : t.ob.length ≤ s.ob.length) : WithinCapacity t := by
  obtain ⟨hibCap, hobCap⟩ := hin
  rw [WithinCapacity, hcfg]
  exact ⟨fun cap hcap => hib.trans (hibCap cap hcap), fun cap hcap => hob.trans (hobCap cap hcap)⟩

/-- A symbol only removes from IB. -/
theorem symbolAction_withinCapacity {s : State} {sym : Symbol} (hs : symbolAt s = some sym)
    (hin : WithinCapacity s) : WithinCapacity (symbolAction sym s) := by
  obtain ⟨hcfg, -, hob, -, n, -, hib⟩ := symbolAction_frame hs
  exact withinCapacity_of_le hin hcfg (by simp [hib]) (by rw [hob])

/-- An operation that the sink's check let through is within OB_CAP, and one of the Framer leaves IB. -/
theorem withinSink_withinCapacity {s t u : State} (hin : WithinCapacity s)
    (hcheck : withinSink u = .next t) (hcfg : u.cfg = s.cfg) (hib : u.ib = s.ib) : WithinCapacity t := by
  obtain ⟨rfl, hfits⟩ := withinSink_eq_next.mp hcheck
  refine ⟨?_, (fits_iff _ _).mp hfits⟩
  rw [hcfg, hib]
  exact hin.1

/-- The calls of the agents keep the capacities: the Framer's by the sink's check, `IB.APPEND` by its
own. -/
theorem exec_call_withinCapacity {s t : State} {cfg : Config} {c : Call} {i : Instr}
    (hdecode : decodeCall cfg c = .ok i) (hin : WithinCapacity s) (hexec : exec i s = .next t) :
    WithinCapacity t := by
  rcases decodeCall_cases hdecode with ⟨data, last, rfl⟩ | ⟨p, hp, rfl⟩ | rfl | ⟨data, rfl⟩
  · exact withinSink_withinCapacity hin hexec (frameByte_cfg s data last) (frameByte_ib s data last)
  · rw [exec_frmEncode_of_ne_nil s hp] at hexec
    obtain ⟨hcfg, -, hib, -⟩ := frameAll_frame s p
    exact withinSink_withinCapacity hin hexec hcfg hib
  · obtain rfl := exec_extPoll_next hexec
    obtain ⟨n, -, hib⟩ := poll_ibFrontDropped s
    have hsame := poll_sameOutside s
    exact withinCapacity_of_le hin hsame.cfg (by simp [hib]) (by rw [hsame.ob])
  · obtain ⟨rfl, hfits⟩ := exec_ibAppend_next hexec
    refine ⟨?_, hin.2⟩
    rw [State.ibAppend_ib, List.length_append]
    exact (fits_iff _ _).mp hfits

/-- The calls of the agents keep the result coded. -/
theorem exec_call_resultOk {s t : State} {cfg : Config} {c : Call} {i : Instr}
    (hdecode : decodeCall cfg c = .ok i) (hok : ResultOk s.x.res) (hexec : exec i s = .next t) :
    ResultOk t.x.res := by
  rcases decodeCall_cases hdecode with ⟨data, last, rfl⟩ | ⟨p, -, rfl⟩ | rfl | ⟨data, rfl⟩
  · obtain rfl := exec_frmByte_next hexec
    rwa [frameByte_x]
  · obtain ⟨-, rfl⟩ := exec_frmEncode_next hexec
    rwa [(frameAll_extractorSideUnchanged s p).1]
  · obtain rfl := exec_extPoll_next hexec
    exact poll_resultOk hok
  · obtain ⟨rfl, -⟩ := exec_ibAppend_next hexec
    exact hok

/-- With unbounded memories every call of the agents completes (60_exceptions.md R185). -/
theorem exec_call_completes {s : State} {cfg : Config} {c : Call} {i : Instr}
    (hdecode : decodeCall cfg c = .ok i) (hib : s.cfg.ibCap = none) (hob : s.cfg.obCap = none) :
    ∃ t, exec i s = .next t := by
  rcases decodeCall_cases hdecode with ⟨data, last, rfl⟩ | ⟨p, hp, rfl⟩ | rfl | ⟨data, rfl⟩
  · exact ⟨_, withinSink_of_unbounded (by rwa [frameByte_cfg])⟩
  · rw [exec_frmEncode_of_ne_nil s hp]
    exact ⟨_, withinSink_of_unbounded (by rwa [(frameAll_setUpUnchanged s p).1])⟩
  · exact ⟨_, rfl⟩
  · exact ⟨_, exec_ibAppend_of_room data (by simp [hib])⟩

end Sys2Proof.Machine

namespace Sys2Proof.Proofs

open Sys2Proof.Machine Sys2Proof.Safety

/-- Settles O45: the call is fetched off the agenda and its instruction runs in what is left. -/
theorem stepPerformsTheNextCall : Obligations.StepPerformsTheNextCall :=
  fun _ _ _ _ hdistinct hbusy hagenda hdecode => step_of_call hdistinct hbusy hagenda hdecode

/-- Settles O46: the decoder input names the symbol that stands at the cursor. -/
theorem stepRunsTheSymbolAtTheCursor : Obligations.StepRunsTheSymbolAtTheCursor := by
  refine fun s i hdistinct hbusy => ⟨fun b hread hdecode => ?_, fun u hend hdecode => ?_⟩
  · obtain rfl := eq_instr_of_decode_wire (eob := false) hdecode
    exact step_of_symbolAt hdistinct hbusy (symbolAt_of_byte s hread)
  · obtain rfl := eq_instr_of_decode_wire (eob := true) hdecode
    exact step_of_symbolAt hdistinct hbusy (symbolAt_of_end s hend)

/-- Settles O47: with nothing to run, the state is answered as it is. -/
theorem idleStepChangesNothing : Obligations.IdleStepChangesNothing :=
  fun _ hdistinct hbusy hagenda => step_of_idle hdistinct hbusy hagenda

/-- Settles O49: a scan in order has a symbol at its cursor, and a call that is a word completes where
the memories are unbounded. -/
theorem nothingStopsTheMachine : Obligations.NothingStopsTheMachine := by
  intro s hdistinct hib hob hinv hcalls
  cases hbusy : s.x.busy with
  | true =>
    obtain ⟨sym, hs⟩ := Option.isSome_iff_exists.mp ((symbolAt_isSome s).mpr (hinv hbusy).cursor)
    exact ⟨_, step_next_of_symbolAt hdistinct hbusy hs⟩
  | false =>
    cases hagenda : s.agenda with
    | nil => exact ⟨s, step_of_idle hdistinct hbusy hagenda⟩
    | cons c rest =>
      obtain ⟨i, hdecode⟩ := hcalls c (by simp [hagenda])
      rw [step_of_call hdistinct hbusy hagenda hdecode]
      exact exec_call_completes hdecode hib hob

/-- Settles O50: every register is written out at creation, and the first poll scans no byte. -/
theorem resetStateIsFresh : Obligations.ResetStateIsFresh := by
  refine ⟨fun c => ?_, rfl, rfl, rfl, rfl, rfl, rfl, rfl, by decide⟩
  obtain ⟨hib, hres, -⟩ := exec_extPoll_answer (s := State.create c) rfl
  refine ⟨rfl, rfl, rfl, rfl, rfl, ⟨fun _ _ => Nat.zero_le _, fun _ _ => Nat.zero_le _⟩, nofun,
    ⟨[], [], nofun, rfl, rfl, nofun⟩, resultOk_incomplete,
    fun hdistinct => step_of_idle hdistinct rfl rfl, _, rfl, hres.trans ?_, hib.trans ?_⟩ <;>
  rw [Wire.answer, State.create_ib, Wire.scan_hunt_nil]

/-- Settles O51: no instruction writes the configuration, so neither does a step. -/
theorem configurationIsNeverWritten : Obligations.ConfigurationIsNeverWritten := by
  refine ⟨fun _ _ _ h => exec_cfg h, fun s t h => ?_⟩
  obtain ⟨-, ⟨-, sym, hsym, rfl⟩ | ⟨-, -, rfl⟩ | ⟨-, c, rest, i, -, -, hexec⟩⟩ := step_cases h
  · exact (symbolAction_sameOutside hsym).cfg
  · rfl
  · exact (exec_cfg hexec :)

/-- Settles O54: only the agents' calls add to a memory, each behind its check. -/
theorem stepKeepsTheCapacities : Obligations.StepKeepsTheCapacities := by
  intro s t hin hstep
  obtain ⟨-, ⟨-, sym, hsym, rfl⟩ | ⟨-, -, rfl⟩ | ⟨-, c, rest, i, -, hdecode, hexec⟩⟩ :=
    step_cases hstep
  · exact symbolAction_withinCapacity hsym hin
  · exact hin
  · exact exec_call_withinCapacity (s := { s with agenda := rest }) hdecode hin hexec

/-- Settles O55: a result is written at an ending alone, as incomplete or as a frame's. -/
theorem stepKeepsTheResultCoded : Obligations.StepKeepsTheResultCoded := by
  intro s t hok hstep
  suffices ResultOk t.x.res from ⟨this, status_ne_of_resultOk this⟩
  obtain ⟨-, ⟨-, sym, -, rfl⟩ | ⟨-, -, rfl⟩ | ⟨-, c, rest, i, -, hdecode, hexec⟩⟩ := step_cases hstep
  · exact symbolAction_resultOk sym hok
  · exact hok
  · exact exec_call_resultOk (s := { s with agenda := rest }) hdecode hok hexec

/-- Settles O56: both states are the one with an empty OB behind other bytes, and an instruction does
the same behind any. -/
theorem obOnlyGrowsAndIsNeverRead : Obligations.ObOnlyGrowsAndIsNeverRead := by
  refine ⟨fun _ _ _ h => exec_ob h, fun i s t other hcap h => ?_⟩
  have hbehind (w : List Byte) : exec i { s with ob := w } =
      andThen (exec i { s with ob := [] }) (fun u => .next (prependOb w u)) := by
    rw [← exec_prependOb w (s := { s with ob := [] }) hcap i, prependOb, List.append_nil]
  have hsame : exec i s = andThen (exec i { s with ob := [] }) (fun u => .next (prependOb s.ob u)) :=
    hbehind s.ob
  cases hempty : exec i { s with ob := [] } with
  | next u =>
    rw [hempty, h] at hsame
    cases hsame
    exact ⟨u.ob, rfl, by rw [hbehind, hempty]; rfl⟩
  | fault r => cases r
  | refused r =>
    rw [hempty, h] at hsame
    cases hsame

end Sys2Proof.Proofs

/-! ## The CRC Engine (42_crc_engine.md) -/

namespace Sys2Proof.Machine

open Sys2Proof.Safety

/-- The step as one exclusive or and one shift with the bit brought in (42_crc_engine.md R160). -/
theorem crcStep_eq_shiftConcat (r : Byte) (bit : Bool) (poly : Byte) :
    crcStep r bit poly = (r ^^^ if r.getLsbD 7 then poly else 0#8).shiftConcat bit := by
  rw [crcStep, shiftLeft_or_bitByte]
  cases r.getLsbD 7 <;> simp

/-- Bit 0 of a step is the bit fed (R170). -/
theorem crcStep_getLsbD_zero (r : Byte) (bit : Bool) (poly : Byte) :
    (crcStep r bit poly).getLsbD 0 = bit := by
  simp [crcStep_eq_shiftConcat]

/-- The shift with a bit brought in takes exclusive or to exclusive or. -/
theorem shiftConcat_xor (x y : Byte) (a b : Bool) :
    (x ^^^ y).shiftConcat (a ^^ b) = x.shiftConcat a ^^^ y.shiftConcat b := by
  ext i hi
  cases i <;> simp [BitVec.getElem_shiftConcat]

/-- The step is linear in the remainder and the bit (R172). -/
theorem crcStep_xor (r r' : Byte) (a b : Bool) (poly : Byte) :
    crcStep (r ^^^ r') (a ^^ b) poly = crcStep r a poly ^^^ crcStep r' b poly := by
  have hselect (x y : Bool) : (if x ^^ y then poly else 0#8) =
      (if x then poly else 0#8) ^^^ if y then poly else 0#8 := by
    cases x <;> cases y <;> simp
  simp only [crcStep_eq_shiftConcat, ← shiftConcat_xor, BitVec.getLsbD_xor, hselect]
  congr 1
  ac_rfl

theorem crcByte_xor (r r' v v' poly : Byte) :
    crcByte (r ^^^ r') (v ^^^ v') poly = crcByte r v poly ^^^ crcByte r' v' poly := by
  simp only [crcByte_eq_steps, BitVec.getLsbD_xor, crcStep_xor]

theorem crcDrain_xor (r r' poly : Byte) :
    crcDrain (r ^^^ r') poly = crcDrain r poly ^^^ crcDrain r' poly :=
  crcByte_xor r r' 0x00#8 0x00#8 poly

/-- So is the loop over sequences of one length, seeds included. -/
theorem crcRun_zipWith_xor (poly : Byte) (i : Nat) (r r' : Byte) {p q : List Byte}
    (hlen : p.length = q.length) :
    crcRun poly i (r ^^^ r') (List.zipWith (· ^^^ ·) p q) =
      crcRun poly i r p ^^^ crcRun poly i r' q := by
  induction p generalizing q i r r' with
  | nil => rw [List.length_nil, eq_comm, List.length_eq_zero_iff] at hlen; subst hlen; rfl
  | cons a p ih =>
    cases q with
    | nil => cases hlen
    | cons b q =>
      have hlen : p.length = q.length := Nat.succ.inj hlen
      rw [List.zipWith_cons_cons, crcRun_cons, crcRun_cons, crcRun_cons, ← ih _ _ _ hlen, ← crcByte_xor]
      congr 2
      split <;> rfl

theorem crcPayload_zipWith_xor {p q : List Byte} {poly cp cq : Byte} (hlen : p.length = q.length)
    (hp : crcPayload p poly = some cp) (hq : crcPayload q poly = some cq) :
    crcPayload (List.zipWith (· ^^^ ·) p q) poly = some (cp ^^^ cq) := by
  have hpne := ne_nil_of_crcPayload_eq_some hp
  have hqne := ne_nil_of_crcPayload_eq_some hq
  rw [crcPayload_of_ne_nil hpne 0, Option.some.injEq] at hp
  rw [crcPayload_of_ne_nil hqne 0, Option.some.injEq] at hq
  have hne : List.zipWith (· ^^^ ·) p q ≠ [] := by simp [List.zipWith_eq_nil_iff, hpne, hqne]
  rw [crcPayload_of_ne_nil hne (0 ^^^ 0), crcRun_zipWith_xor _ _ _ _ hlen, crcDrain_xor, hp, hq]

/-- Two polynomials that step alike give every payload the same checksum. -/
theorem crcPayload_congr_poly {poly poly' : Byte}
    (hstep : ∀ r bit, crcStep r bit poly = crcStep r bit poly') (p : List Byte) :
    crcPayload p poly = crcPayload p poly' := by
  have hbyte (r v : Byte) : crcByte r v poly = crcByte r v poly' := by
    simp only [crcByte_eq_steps, hstep]
  have hrun (i : Nat) (r : Byte) (q : List Byte) : crcRun poly i r q = crcRun poly' i r q := by
    induction q generalizing i r with
    | nil => rfl
    | cons b q ih => rw [crcRun_cons, crcRun_cons, hbyte, ih]
  cases p with
  | nil => rfl
  | cons b rest => rw [crcPayload_cons, crcPayload_cons, hrun, crcDrain, crcDrain, hbyte]

/-- Bit 7 of the polynomial is shifted out (R171). -/
theorem crcStep_xor_topBit (r : Byte) (bit : Bool) (poly : Byte) :
    crcStep r bit (poly ^^^ 0x80#8) = crcStep r bit poly := by
  have hout (x : Byte) : (x ^^^ 0x80#8) <<< 1 = x <<< 1 := by
    rw [BitVec.shiftLeft_xor_distrib, show (0x80#8 : Byte) <<< 1 = 0#8 by decide, BitVec.xor_zero]
  unfold crcStep
  by_cases htop : r.getLsbD 7 = true
  · rw [if_pos htop, if_pos htop, ← BitVec.xor_assoc, hout]
  · rw [if_neg htop, if_neg htop]

/-- Without a generator a step is a shift, and eight of them leave nothing (R175). -/
theorem crcDrain_zero_poly (r : Byte) : crcDrain r 0x00#8 = 0x00#8 := by
  have hstep (x : Byte) : crcStep x false 0x00#8 = x <<< 1 := by simp [crcStep, bitByte]
  simp only [crcDrain, crcByte_eq_steps, BitVec.getLsbD_zero, hstep, ← BitVec.shiftLeft_add]
  exact BitVec.shiftLeft_eq_zero le_rfl

/-! ### One flipped bit -/

/-- So many bytes with one bit set in them. -/
def oneBit (n i k : Nat) : List Byte := (List.replicate n 0x00#8).set i (1#8 <<< k)

theorem length_oneBit (n i k : Nat) : (oneBit n i k).length = n := by simp [oneBit]

/-- Flipping a bit is the exclusive or with the one bit. -/
theorem set_eq_zipWith_oneBit {p : List Byte} {i : Nat} {b : Byte} (hget : p[i]? = some b) (k : Nat) :
    p.set i (b ^^^ (1#8 <<< k)) = List.zipWith (· ^^^ ·) p (oneBit p.length i k) := by
  obtain ⟨hlt, rfl⟩ := List.getElem?_eq_some_iff.mp hget
  refine List.ext_getElem (by simp [oneBit]) fun j h _ => ?_
  by_cases hij : i = j
  · subst hij; simp [oneBit]
  · simp [oneBit, hij]

/-- The default generator notices each bit of a block on its own (R174, by evaluation). -/
theorem crcPayload_oneBit_ne_zero :
    ∀ n < 9, ∀ i < n, ∀ k < 8, crcPayload (oneBit n i k) 0x87#8 ≠ some 0x00#8 := by
  decide +kernel

theorem crcPayload_set_ne {p : List Byte} {i k : Nat} {b : Byte} (hle : p.length ≤ 8)
    (hget : p[i]? = some b) (hk : k < 8) :
    crcPayload (p.set i (b ^^^ (1#8 <<< k))) 0x87#8 ≠ crcPayload p 0x87#8 := by
  obtain ⟨hlt, -⟩ := List.getElem?_eq_some_iff.mp hget
  have hp : crcPayload p 0x87#8 = some _ :=
    crcPayload_of_ne_nil (List.ne_nil_of_length_pos (by omega)) 0 _
  have he : crcPayload (oneBit p.length i k) 0x87#8 = some _ :=
    crcPayload_of_ne_nil (List.ne_nil_of_length_pos (by rw [length_oneBit]; omega)) 0 _
  have hne := crcPayload_oneBit_ne_zero p.length (by omega) i hlt k hk
  rw [set_eq_zipWith_oneBit hget, crcPayload_zipWith_xor (length_oneBit _ _ _).symm hp he, hp]
  rw [he] at hne
  simpa using hne

/-! ### The loop over a payload -/

/-- The loop of `CrcPayload` as a fold over the bytes with their indices (R165). -/
theorem foldl_zipIdx_eq_crcRun (poly : Byte) (p : List Byte) (i : Nat) (r : Byte) :
    (p.zipIdx i).foldl (fun r bi => crcByte (if bi.2 % 8 = 0 then bi.1 else r) bi.1 poly) r =
      crcRun poly i r p := by
  induction p generalizing i r with
  | nil => rfl
  | cons b rest ih => rw [List.zipIdx_cons, List.foldl_cons, ih, crcRun_cons]

/-- Bytes before a block's first do not count (R165, decision D7). -/
theorem crcPayload_drop {p : List Byte} {n : Nat} (hn : n % 8 = 0) (hlt : n < p.length) (poly : Byte) :
    crcPayload p poly = crcPayload (p.drop n) poly := by
  have hlen : (p.take n).length = n := List.length_take_of_le hlt.le
  have hne : p.drop n ≠ [] := by simpa using hlt
  have hp : p ≠ [] := List.ne_nil_of_length_pos (by omega)
  have hsplit := crcRun_append poly 0 0 (p.take n) (p.drop n)
  rw [List.take_append_drop, hlen, crcRun_index_mod poly (i := 0 + n) (j := 0) (by omega)] at hsplit
  rw [crcPayload_of_ne_nil hp 0, hsplit, ← crcPayload_of_ne_nil hne]

/-- Loading one unit's register is all that a CRC operation does (10_state.md R33). -/
theorem setCrcReg_onlyCrcRegister (s : State) (u : CrcUnit) (v : Byte) :
    OnlyCrcRegisterOf u s (s.setCrcReg u v) := by
  refine ⟨fun w hw => s.crcReg_setCrcReg_other hw.symm v, ?_⟩
  cases u <;> exact ⟨rfl, rfl, rfl, fun _ => rfl, fun _ => rfl, rfl, rfl⟩

end Sys2Proof.Machine

namespace Sys2Proof.Proofs

open Sys2Proof.Machine Sys2Proof.Safety

/-- Settles O3: each of the four is one load of the caller's register. -/
theorem crcOperationsUpdateTheCallersRegister : Obligations.CrcOperationsUpdateTheCallersRegister :=
  fun s u _ _ =>
    ⟨⟨_, rfl, s.crcReg_setCrcReg_same u _, setCrcReg_onlyCrcRegister s u _⟩,
      ⟨_, rfl, s.crcReg_setCrcReg_same u _, setCrcReg_onlyCrcRegister s u _⟩,
      ⟨_, rfl, s.crcReg_setCrcReg_same u _, setCrcReg_onlyCrcRegister s u _⟩,
      ⟨_, rfl, s.crcReg_setCrcReg_same u _, setCrcReg_onlyCrcRegister s u _⟩⟩

/-- Settles O2: the fold is the loop, and the loop is seeded anew at the last multiple of 8. -/
theorem payloadChecksumFollowsTheLoop : Obligations.PayloadChecksumFollowsTheLoop := by
  refine fun p poly => ⟨fun hp => by rw [hp, crcPayload_nil], fun hp => ⟨fun r₀ => ?_, ?_⟩⟩
  · rw [foldl_zipIdx_eq_crcRun, crcPayload_of_ne_nil hp r₀, crcDrain]
  · have hpos := List.length_pos_iff.mpr hp
    exact crcPayload_drop (by omega) (by omega) poly

/-- Settles O4: the last bit of the drain is 0. -/
theorem checksumBitZeroIsClear : Obligations.ChecksumBitZeroIsClear := by
  refine ⟨crcStep_getLsbD_zero, fun p poly c hcrc => ?_⟩
  rw [crcPayload_of_ne_nil (ne_nil_of_crcPayload_eq_some hcrc) 0, Option.some.injEq] at hcrc
  rw [← hcrc, crcDrain, crcByte_eq_steps, crcStep_getLsbD_zero]
  exact BitVec.getLsbD_zero

/-- Settles O5: the step shifts bit 7 of the polynomial out, and a checksum is made of steps. -/
theorem polynomialTopBitIsIdle : Obligations.PolynomialTopBitIsIdle :=
  ⟨crcStep_xor_topBit, fun p poly =>
    crcPayload_congr_poly (fun r bit => crcStep_xor_topBit r bit poly) p⟩

/-- Settles O6: every step is linear, the seeds of equal index included. -/
theorem checksumIsLinear : Obligations.ChecksumIsLinear :=
  fun _ _ _ _ _ hlen hp hq => crcPayload_zipWith_xor hlen hp hq

/-- Settles O7: by linearity the checksums differ by that of the one bit, which is not 0. -/
theorem singleBitFlipChangesChecksum : Obligations.SingleBitFlipChangesChecksum :=
  fun _ _ _ _ hle hget hk => crcPayload_set_ne hle hget hk

/-- Settles O8: 0x80 steps as 0x00 does, and with that the drain shifts everything out. -/
theorem degeneratePolynomialsClearChecksums : Obligations.DegeneratePolynomialsClearChecksums := by
  intro p poly hp hpoly
  have hzero : crcPayload p 0x00#8 = some 0x00#8 := by
    rw [crcPayload_of_ne_nil hp 0, crcDrain_zero_poly]
  rcases hpoly with rfl | rfl
  · exact hzero
  · exact (crcPayload_congr_poly (fun r bit => crcStep_xor_topBit r bit 0x00#8) p).trans hzero

end Sys2Proof.Proofs

/-! ## What the scan over the bytes answers (41_extractor.md sections 4 to 6) -/

namespace Sys2Proof.Wire

open Sys2Proof.Machine

variable (c : Config)

/-! ### Events -/

/-- The answer after other events of the same poll. -/
def Answer.after (evs : List Event) (a : Answer) : Answer := { a with events := evs ++ a.events }

/-- Two answers with one result and one rest. -/
def SameResult (a b : Answer) : Prop := a.res = b.res ∧ a.rest = b.rest

theorem SameResult.symm {a b : Answer} (h : SameResult a b) : SameResult b a := ⟨h.1.symm, h.2.symm⟩

theorem SameResult.trans {a b d : Answer} (hab : SameResult a b) (hbd : SameResult b d) :
    SameResult a d :=
  ⟨hab.1.trans hbd.1, hab.2.trans hbd.2⟩

/-- The events so far stay in front of those to come and decide nothing (60_exceptions.md R180). -/
theorem scan_after (st : ScanState) (kept acc : List Byte) (evs more : List Event) (bs : List Byte) :
    scan c st kept acc (evs ++ more) bs = (scan c st kept acc more bs).after evs := by
  induction bs generalizing st kept acc more with
  | nil =>
    cases st with
    | hunt => cases hempty : kept.isEmpty <;> simp [Answer.after, hempty]
    | frame => simp [Answer.after]
    | escd => simp [Answer.after]
  | cons b bs ih =>
    cases st with
    | hunt =>
      by_cases hstart : b = c.start
      · subst hstart
        rw [scan_hunt_start, scan_hunt_start, ← ih]
        split <;> simp
      · rw [scan_hunt_of_ne_start _ _ _ _ _ hstart, scan_hunt_of_ne_start _ _ _ _ _ hstart, ih]
    | frame =>
      cases byteInFrame_cases c b with
      | esc => rw [scan_frame_esc, scan_frame_esc, ih]
      | stop hesc =>
        rw [scan_frame_stop _ _ _ _ _ hesc, scan_frame_stop _ _ _ _ _ hesc]
        simp [Answer.after]
      | start hesc hstop =>
        rw [scan_frame_start _ _ _ _ _ hesc hstop, scan_frame_start _ _ _ _ _ hesc hstop,
          List.append_assoc, ih]
      | data htag =>
        rw [scan_frame_of_not_tag _ _ _ _ _ htag, scan_frame_of_not_tag _ _ _ _ _ htag, ih]
    | escd => rw [scan_escd_cons, scan_escd_cons, ih]

theorem scan_sameResult (st : ScanState) (kept acc : List Byte) (evs evs' : List Event)
    (bs : List Byte) : SameResult (scan c st kept acc evs bs) (scan c st kept acc evs' bs) := by
  have hnone (es : List Event) :
      SameResult (scan c st kept acc es bs) (scan c st kept acc [] bs) := by
    have hafter := scan_after c st kept acc es [] bs
    rw [List.append_nil] at hafter
    rw [hafter]
    exact ⟨rfl, rfl⟩
  exact (hnone evs).trans (hnone evs').symm

/-- The last event of a poll, by its result (60_exceptions.md R186). -/
def resultEvents (r : Result) : List Event :=
  if r.complete = false then [.incomplete]
  else if r.payload = [] then [.malformedShort]
  else if r.valid = false then [.crcMismatch] else []

theorem resultEvents_of_complete {r : Result} (h : r.complete = true) :
    resultEvents r = frameEvent r := by
  unfold resultEvents frameEvent
  cases r.valid <;> simp [h, List.isEmpty_iff]

/-- Inside a frame the events to come are restarts and then the result's (60_exceptions.md R186). -/
theorem scan_events {st : ScanState} (hst : st ≠ .hunt) (kept acc : List Byte) (evs : List Event)
    (bs : List Byte) :
    ∃ n, (scan c st kept acc evs bs).events =
      evs ++ List.replicate n .resyncRestart ++ resultEvents (scan c st kept acc evs bs).res := by
  induction bs generalizing st kept acc evs with
  | nil =>
    refine ⟨0, ?_⟩
    cases st with
    | hunt => exact absurd rfl hst
    | frame => simp [resultEvents, Result.incomplete]
    | escd => simp [resultEvents, Result.incomplete]
  | cons b bs ih =>
    cases st with
    | hunt => exact absurd rfl hst
    | frame =>
      cases byteInFrame_cases c b with
      | esc => rw [scan_frame_esc]; exact ih (st := .escd) nofun _ _ _
      | stop hesc =>
        rw [scan_frame_stop _ _ _ _ _ hesc]
        exact ⟨0, by simp [resultEvents_of_complete]⟩
      | start hesc hstop =>
        rw [scan_frame_start _ _ _ _ _ hesc hstop]
        obtain ⟨n, hn⟩ := ih (st := .frame) nofun [c.start] [] (evs ++ [.resyncRestart])
        exact ⟨n + 1, by rw [hn, List.replicate_succ]; simp⟩
      | data htag => rw [scan_frame_of_not_tag _ _ _ _ _ htag]; exact ih (st := .frame) nofun _ _ _
    | escd => rw [scan_escd_cons]; exact ih (st := .frame) nofun _ _ _

/-! ### Garbage -/

/-- Bytes without a start tag are garbage to a scan in `HUNT` (41_extractor.md R123, R144). -/
theorem scan_hunt_garbage {garbage : List Byte} (hgarbage : c.start ∉ garbage) (kept acc : List Byte)
    (evs : List Event) (bs : List Byte) :
    scan c .hunt kept acc evs (garbage ++ bs) = scan c .hunt (kept ++ garbage) acc evs bs := by
  induction garbage generalizing kept with
  | nil => simp
  | cons b garbage ih =>
    obtain ⟨hb, hrest⟩ := not_or.mp (mt List.mem_cons.mpr hgarbage)
    rw [List.cons_append, scan_hunt_of_ne_start _ _ _ _ _ (Ne.symm hb), ih hrest,
      List.append_cons kept b garbage]

/-- A buffer has no start tag and is garbage whole, or the scan enters a frame at its first
(41_extractor.md R124, R125). -/
theorem answer_cases (bytes : List Byte) :
    (c.start ∉ bytes ∧ answer c bytes =
      { rest := []
        res := Result.incomplete
        events := (if bytes.isEmpty then [] else [.resyncDrop]) ++ [.incomplete] }) ∨
    ∃ garbage bs, bytes = garbage ++ c.start :: bs ∧ c.start ∉ garbage ∧
      answer c bytes =
        scan c .frame [c.start] [] (if garbage.isEmpty then [] else [.resyncDrop]) bs := by
  by_cases hstart : c.start ∈ bytes
  · obtain ⟨garbage, bs, rfl, hgarbage⟩ := List.eq_append_cons_of_mem hstart
    refine .inr ⟨garbage, bs, rfl, hgarbage, ?_⟩
    rw [answer, scan_hunt_garbage c hgarbage, scan_hunt_start]
    rfl
  · refine .inl ⟨hstart, ?_⟩
    have hscan := scan_hunt_garbage c hstart [] [] [] []
    rw [List.append_nil, scan_hunt_nil] at hscan
    exact hscan

/-- What is in front of the first start tag decides neither result nor rest (41_extractor.md R144). -/
theorem answer_garbage_append {garbage : List Byte} (hgarbage : c.start ∉ garbage) (bytes : List Byte) :
    SameResult (answer c (garbage ++ bytes)) (answer c bytes) := by
  rcases answer_cases c bytes with ⟨hnone, hanswer⟩ | ⟨more, bs, rfl, hmore, hanswer⟩
  · rw [hanswer]
    have hscan := scan_hunt_garbage c (garbage := garbage ++ bytes) (by simp [hgarbage, hnone])
      [] [] [] []
    rw [List.append_nil, scan_hunt_nil] at hscan
    rw [answer, hscan]
    exact ⟨rfl, rfl⟩
  · rw [hanswer, ← List.append_assoc, answer,
      scan_hunt_garbage c (garbage := garbage ++ more) (by simp [hgarbage, hmore]), scan_hunt_start]
    exact scan_sameResult ..

/-! ### Scanning again -/

/-- The bytes kept, scanned again from the front, bring the scan back to where it stands. -/
def Replays (st : ScanState) (kept acc : List Byte) : Prop :=
  ∀ evs more, SameResult (answer c (kept ++ more)) (scan c st kept acc evs more)

theorem replays_start : Replays c .frame [c.start] [] := by
  intro evs more
  rw [List.singleton_append, answer, scan_hunt_start]
  exact scan_sameResult ..

/-- A byte kept keeps it so. -/
theorem Replays.snoc {c : Config} {st st' : ScanState} {kept acc acc' : List Byte} {b : Byte}
    (h : Replays c st kept acc)
    (hscan : ∀ evs more, scan c st kept acc evs (b :: more) = scan c st' (kept ++ [b]) acc' evs more) :
    Replays c st' (kept ++ [b]) acc' := by
  intro evs more
  rw [List.append_assoc, List.singleton_append, ← hscan]
  exact h evs (b :: more)

/-- An incomplete scan of a frame keeps all that a later scan needs (41_extractor.md R140). -/
theorem scan_incomplete_resumes {st : ScanState} (hst : st ≠ .hunt) {kept acc : List Byte}
    {evs : List Event} {bs : List Byte} (hreplays : Replays c st kept acc)
    (hincomplete : (scan c st kept acc evs bs).res.complete = false) (more : List Byte) :
    SameResult (answer c ((scan c st kept acc evs bs).rest ++ more))
      (scan c st kept acc evs (bs ++ more)) := by
  induction bs generalizing st kept acc evs with
  | nil =>
    have hrest : (scan c st kept acc evs []).rest = kept := by
      cases st with
      | hunt => exact absurd rfl hst
      | frame => rw [scan_frame_nil]
      | escd => rw [scan_escd_nil]
    rw [hrest]
    exact hreplays evs more
  | cons b bs ih =>
    rw [List.cons_append]
    cases st with
    | hunt => exact absurd rfl hst
    | frame =>
      cases byteInFrame_cases c b with
      | esc =>
        rw [scan_frame_esc] at hincomplete ⊢
        rw [scan_frame_esc]
        exact ih (st := .escd) nofun (hreplays.snoc fun _ _ => scan_frame_esc ..) hincomplete
      | stop hesc =>
        rw [scan_frame_stop _ _ _ _ _ hesc, frameResult_complete] at hincomplete
        cases hincomplete
      | start hesc hstop =>
        rw [scan_frame_start _ _ _ _ _ hesc hstop] at hincomplete ⊢
        rw [scan_frame_start _ _ _ _ _ hesc hstop]
        exact ih (st := .frame) nofun (replays_start c) hincomplete
      | data htag =>
        rw [scan_frame_of_not_tag _ _ _ _ _ htag] at hincomplete ⊢
        rw [scan_frame_of_not_tag _ _ _ _ _ htag]
        exact ih (st := .frame) nofun
          (hreplays.snoc fun _ _ => scan_frame_of_not_tag _ _ _ _ _ htag) hincomplete
    | escd =>
      rw [scan_escd_cons] at hincomplete ⊢
      rw [scan_escd_cons]
      exact ih (st := .frame) nofun (hreplays.snoc fun _ _ => scan_escd_cons ..) hincomplete

theorem answer_incomplete_resumes {bytes : List Byte}
    (hincomplete : (answer c bytes).res.complete = false) (more : List Byte) :
    SameResult (answer c ((answer c bytes).rest ++ more)) (answer c (bytes ++ more)) := by
  rcases answer_cases c bytes with ⟨hnone, hanswer⟩ | ⟨garbage, bs, rfl, hgarbage, hanswer⟩
  · rw [hanswer, List.nil_append]
    exact (answer_garbage_append c hnone more).symm
  · rw [hanswer] at hincomplete ⊢
    have hall : answer c (garbage ++ c.start :: bs ++ more) = scan c .frame [c.start] []
        (if garbage.isEmpty then [] else [.resyncDrop]) (bs ++ more) := by
      rw [List.append_assoc, answer, scan_hunt_garbage c hgarbage, List.cons_append, scan_hunt_start]
      rfl
    rw [hall]
    exact scan_incomplete_resumes c (st := .frame) nofun (replays_start c) hincomplete more

end Sys2Proof.Wire

namespace Sys2Proof.Proofs

open Sys2Proof.Machine Sys2Proof.Safety

/-- Settles O33: the first byte decides the one drop, and a frame adds restarts and its ending. -/
theorem pollEventsInScanOrder : Obligations.PollEventsInScanOrder := by
  intro s t hpoll
  obtain ⟨-, hres, hevents⟩ := exec_extPoll_answer hpoll
  rw [hres, hevents]
  rcases Wire.answer_cases s.cfg s.ib with ⟨hnone, hanswer⟩ | ⟨garbage, bs, hib, hgarbage, hanswer⟩
  · refine ⟨0, ?_⟩
    rw [hanswer]
    cases hib : s.ib with
    | nil => rfl
    | cons b bs =>
      have hb : b ≠ s.cfg.start := by
        rintro rfl
        exact hnone (by simp [hib])
      simp [hb, Result.incomplete]
  · rw [hanswer]
    obtain ⟨n, hn⟩ := Wire.scan_events s.cfg (st := .frame) nofun [s.cfg.start] []
      (if garbage.isEmpty then [] else [.resyncDrop]) bs
    refine ⟨n, hn.trans ?_⟩
    have hfirst : s.ib.head? = none ∨ s.ib.head? = some s.cfg.start ↔ garbage.isEmpty = true := by
      rw [hib]
      cases garbage with
      | nil => simp
      | cons b garbage =>
        have hb : b ≠ s.cfg.start := by
          rintro rfl
          simp at hgarbage
        simp [hb]
    simp only [hfirst]
    rfl

/-- Settles O37: an incomplete answer keeps what a scan of all the bytes needs. -/
theorem incompletePollLosesNothing : Obligations.IncompletePollLosesNothing := by
  intro s t more hpoll hincomplete
  obtain ⟨hib, hres, -⟩ := exec_extPoll_answer hpoll
  rw [hres] at hincomplete
  obtain ⟨hsameRes, hsameRest⟩ := Wire.answer_incomplete_resumes s.cfg hincomplete more
  obtain ⟨u, hu, huib, hures, -⟩ := exec_extPoll_of_answer (s := { t with ib := t.ib ++ more }) rfl
  obtain ⟨v, hv, hvib, hvres, -⟩ := exec_extPoll_of_answer (s := { s with ib := s.ib ++ more }) rfl
  simp only [exec_cfg hpoll, hib] at huib hures
  exact ⟨u, v, hu, hv, by rw [hures, hvres, hsameRes], by rw [huib, hvib, hsameRest]⟩

/-- Settles O36: no bytes appended is the case of none lost. -/
theorem incompletePollRepeats : Obligations.IncompletePollRepeats := by
  intro s t hpoll hincomplete
  obtain ⟨u, v, hu, hv, hres, hib⟩ := incompletePollLosesNothing s t [] hpoll hincomplete
  simp only [List.append_nil] at hu hv
  obtain rfl : t = v := Host.Outcome.next.inj (hpoll.symm.trans hv)
  exact ⟨u, hu, hres, hib⟩

/-- Settles O38: the scan in `HUNT` passes over bytes without a start tag. -/
theorem garbageBeforeAStartTagIsIgnored : Obligations.GarbageBeforeAStartTagIsIgnored := by
  intro s garbage hgarbage
  obtain ⟨hres, hrest⟩ := Wire.answer_garbage_append s.cfg hgarbage s.ib
  obtain ⟨t, ht, htib, htres, -⟩ := exec_extPoll_of_answer (s := s) rfl
  obtain ⟨u, hu, huib, hures, -⟩ := exec_extPoll_of_answer (s := { s with ib := garbage ++ s.ib }) rfl
  exact ⟨t, u, ht, hu, by rw [hures, htres, hres], by rw [huib, htib, hrest]⟩

end Sys2Proof.Proofs

/-! ## Frames on the wire and what a poll makes of them (30_encoding.md, 41_extractor.md) -/

namespace Sys2Proof.Wire

open Sys2Proof.Machine

variable (c : Config)

/-! ### What a poll removes -/

/-- The bytes are frames begun and superseded, and then what an answer left or completed
(20_memory.md R56). -/
def RemovesFrames (bytes : List Byte) (a : Answer) : Prop :=
  ∃ frames : List (List (Bool × Byte)), (∀ items ∈ frames, ItemsOk c items) ∧
    (a.res.complete = false → bytes = superseded c frames ++ a.rest ∧
      ∃ (items : List (Bool × Byte)) (dangling : List Byte), ItemsOk c items ∧
        (dangling = [] ∨ dangling = [c.esc]) ∧ a.rest = begun c items ++ dangling) ∧
    (a.res.complete = true → ∃ items : List (Bool × Byte), ItemsOk c items ∧
      bytes = superseded c frames ++ begun c items ++ c.stop :: a.rest)

/-- The escape tag that a scan in `ESCD` has read and not yet resolved (41_extractor.md R128). -/
def pending : ScanState → List Byte
  | .hunt => []
  | .frame => []
  | .escd => [c.esc]

variable {c}

theorem itemsOk_snoc {items : List (Bool × Byte)} {escaped : Bool} {b : Byte} (hitems : ItemsOk c items)
    (hb : escaped = false → c.isTag b = false) : ItemsOk c (items ++ [(escaped, b)]) :=
  (itemsOk_append c).mpr ⟨hitems, by simpa [ItemsOk] using hb⟩

/-- One more frame begun before a start tag is one more superseded (41_extractor.md R132). -/
theorem RemovesFrames.begun_append {bytes : List Byte} {a : Answer} (h : RemovesFrames c bytes a)
    {items : List (Bool × Byte)} (hitems : ItemsOk c items) :
    RemovesFrames c (begun c items ++ bytes) a := by
  obtain ⟨frames, hframes, hincomplete, hcomplete⟩ := h
  refine ⟨items :: frames, List.forall_mem_cons.mpr ⟨hitems, hframes⟩, fun hres => ?_, fun hres => ?_⟩
  · obtain ⟨hbytes, hrest⟩ := hincomplete hres
    exact ⟨by rw [superseded_cons, List.append_assoc, ← hbytes], hrest⟩
  · obtain ⟨last, hlast, hbytes⟩ := hcomplete hres
    exact ⟨last, hlast, by simp [hbytes]⟩

/-- At the end of the bytes the frame begun stays whole (41_extractor.md R126, R129). -/
theorem removesFrames_of_end {st : ScanState} {items : List (Bool × Byte)} (hitems : ItemsOk c items)
    (evs : List Event) :
    RemovesFrames c (begun c items ++ pending c st)
      { rest := begun c items ++ pending c st, res := Result.incomplete, events := evs } := by
  refine ⟨[], nofun, fun _ => ⟨rfl, items, pending c st, hitems, ?_, rfl⟩, nofun⟩
  cases st <;> simp [pending]

/-- A scan inside a frame begun removes it only as superseded or through its stop tag. -/
theorem scan_removesFrames {st : ScanState} (hst : st ≠ .hunt) {items : List (Bool × Byte)}
    (hitems : ItemsOk c items) (acc : List Byte) (evs : List Event) (bs : List Byte) :
    RemovesFrames c (begun c items ++ pending c st ++ bs)
      (scan c st (begun c items ++ pending c st) acc evs bs) := by
  induction bs generalizing st items acc evs with
  | nil =>
    rw [List.append_nil]
    cases st with
    | hunt => exact absurd rfl hst
    | frame => rw [scan_frame_nil]; exact removesFrames_of_end hitems _
    | escd => rw [scan_escd_nil]; exact removesFrames_of_end hitems _
  | cons b bs ih =>
    have hitem (escaped : Bool) (hb : escaped = false → c.isTag b = false) (acc : List Byte) :=
      ih (st := .frame) nofun (itemsOk_snoc hitems hb) acc evs
    simp only [begun_snoc, pending, List.append_nil, List.append_assoc] at hitem
    cases st with
    | hunt => exact absurd rfl hst
    | frame =>
      rw [pending, List.append_nil]
      cases byteInFrame_cases c b with
      | esc =>
        rw [scan_frame_esc, List.append_cons]
        exact ih (st := .escd) nofun hitems acc evs
      | stop hesc =>
        rw [scan_frame_stop _ _ _ _ _ hesc]
        refine ⟨[], nofun, fun h => ?_, fun _ => ⟨items, hitems, rfl⟩⟩
        rw [frameResult_complete] at h
        cases h
      | start hesc hstop =>
        rw [scan_frame_start _ _ _ _ _ hesc hstop]
        exact (ih (st := .frame) (items := []) nofun (itemsOk_nil c) _ _).begun_append hitems
      | data htag =>
        rw [scan_frame_of_not_tag _ _ _ _ _ htag]
        exact hitem false (fun _ => htag) _
    | escd =>
      rw [scan_escd_cons, pending, List.append_assoc, List.append_assoc]
      exact hitem true nofun _

variable (c)

/-! ### Items of a frame -/

/-- Items in a frame are read as their bytes (41_extractor.md R127 to R130). -/
theorem scan_frame_items {items : List (Bool × Byte)} (hitems : ItemsOk c items) (kept acc : List Byte)
    (evs : List Event) (bs : List Byte) :
    scan c .frame kept acc evs (anyItems c items ++ bs) =
      scan c .frame (kept ++ anyItems c items) (acc ++ items.map Prod.snd) evs bs := by
  induction items generalizing kept acc with
  | nil => simp
  | cons e items ih =>
    obtain ⟨escaped, b⟩ := e
    obtain ⟨hb, hrest⟩ := List.forall_mem_cons.mp hitems
    cases escaped with
    | true => simp [anyItems_cons, ih hrest]
    | false => simp [anyItems_cons, scan_frame_of_not_tag _ _ _ _ _ (hb rfl), ih hrest]

/-- A frame begun at the front of the bytes is read to the end of its items. -/
theorem answer_begun {items : List (Bool × Byte)} (hitems : ItemsOk c items) (bs : List Byte) :
    answer c (begun c items ++ bs) =
      scan c .frame (begun c items) (items.map Prod.snd) [] bs := by
  rw [answer, begun, List.cons_append, scan_hunt_start, scan_frame_items c hitems]
  rfl

/-- With a stop tag behind its items the frame is complete (41_extractor.md R131). -/
theorem answer_begun_stop (hesc : c.stop ≠ c.esc) {items : List (Bool × Byte)} (hitems : ItemsOk c items)
    (rest : List Byte) :
    answer c (begun c items ++ c.stop :: rest) =
      { rest := rest
        res := frameResult c.poly (items.map Prod.snd)
        events := frameEvent (frameResult c.poly (items.map Prod.snd)) } := by
  rw [answer_begun c hitems, scan_frame_stop _ _ _ _ _ hesc]
  rfl

/-- With a start tag behind its items the frame is lost (41_extractor.md R132). -/
theorem answer_begun_start (hesc : c.start ≠ c.esc) (hstop : c.start ≠ c.stop)
    {items : List (Bool × Byte)} (hitems : ItemsOk c items) (rest : List Byte) :
    answer c (begun c items ++ c.start :: rest) =
      (answer c (c.start :: rest)).after [.resyncRestart] := by
  rw [answer_begun c hitems, scan_frame_start _ _ _ _ _ hesc hstop, answer, scan_hunt_start,
    ← scan_after]
  rfl

/-! ### The sender's frames -/

/-- The items that a sender makes of a block (30_encoding.md R72, R73). -/
def sentItems (p : List Byte) : List (Bool × Byte) := p.map fun b => (c.isTag b, b)

@[simp] theorem sentItems_map_snd (p : List Byte) : (sentItems c p).map Prod.snd = p := by
  simp [sentItems, Function.comp_def]

theorem sentItems_ok (p : List Byte) : ItemsOk c (sentItems c p) := by
  simp [ItemsOk, sentItems]

/-- A start tag and a block are a frame begun. -/
theorem start_block_append (p bs : List Byte) :
    c.start :: (block c p ++ bs) = begun c (sentItems c p) ++ bs := by
  rw [block_eq_anyItems]
  rfl

/-- A frame, with what follows it, by its parts (30_encoding.md R70). -/
theorem frame_append {p : List Byte} {crc : Byte} (hcrc : crcPayload p c.poly = some crc)
    (rest : List Byte) :
    frame c p ++ rest = begun c (sentItems c p) ++ crc :: c.stop :: rest := by
  rw [← start_block_append, frame, hcrc]
  simp

/-- A frame whose bare checksum byte is no tag is read as its block and that byte (30_encoding.md
R74). -/
theorem answer_sent (hesc : c.stop ≠ c.esc) (p : List Byte) {rx : Byte} (hrx : c.isTag rx = false)
    (rest : List Byte) :
    answer c (begun c (sentItems c p) ++ rx :: c.stop :: rest) =
      { rest := rest
        res := frameResult c.poly (p ++ [rx])
        events := frameEvent (frameResult c.poly (p ++ [rx])) } := by
  have hread := answer_begun_stop c hesc
    (itemsOk_snoc (escaped := false) (sentItems_ok c p) fun _ => hrx) rest
  simpa [begun_snoc] using hread

/-- A sender's frame comes back as its block, valid (42_crc_engine.md R166). -/
theorem answer_frame (hesc : c.stop ≠ c.esc) {p : List Byte} {crc : Byte}
    (hcrc : crcPayload p c.poly = some crc) (htag : c.isTag crc = false) (rest : List Byte) :
    (answer c (frame c p ++ rest)).rest = rest ∧
      (answer c (frame c p ++ rest)).res = { complete := true, valid := true, payload := p } := by
  rw [frame_append c hcrc, answer_sent c hesc p htag, frameResult_snoc, hcrc]
  exact ⟨rfl, by simp⟩

/-! ### Checksums that are tags (30_encoding.md R84) -/

section Collision

variable {p : List Byte} (rest : List Byte)

/-- A bare checksum `ESC` makes an item of the stop tag, and the frame goes on. -/
theorem frame_append_of_crc_esc (hcrc : crcPayload p c.poly = some c.esc)
    (items : List (Bool × Byte)) :
    frame c p ++ anyItems c items ++ rest =
      begun c (sentItems c p ++ [(true, c.stop)] ++ items) ++ rest := by
  rw [frame_append c hcrc]
  simp [begun, anyItems]

theorem sentItems_escapedStop_ok {items : List (Bool × Byte)} (hitems : ItemsOk c items) :
    ItemsOk c (sentItems c p ++ [(true, c.stop)] ++ items) :=
  (itemsOk_append c).mpr ⟨itemsOk_snoc (sentItems_ok c p) nofun, hitems⟩

/-- A bare checksum `STOP` ends the frame a byte early. -/
theorem answer_frame_of_crc_stop (hesc : c.stop ≠ c.esc) (hcrc : crcPayload p c.poly = some c.stop) :
    answer c (frame c p ++ rest) =
      { rest := c.stop :: rest
        res := frameResult c.poly p
        events := frameEvent (frameResult c.poly p) } := by
  rw [frame_append c hcrc, answer_begun_stop c hesc (sentItems_ok c p), sentItems_map_snd]

/-- A bare checksum `START` supersedes its frame by one without literals. -/
theorem answer_frame_of_crc_start (hstartEsc : c.start ≠ c.esc) (hstartStop : c.start ≠ c.stop)
    (hesc : c.stop ≠ c.esc) (hcrc : crcPayload p c.poly = some c.start) :
    answer c (frame c p ++ rest) =
      { rest := rest
        res := frameResult c.poly []
        events := .resyncRestart :: frameEvent (frameResult c.poly []) } := by
  have hempty := answer_begun_stop c hesc (itemsOk_nil c) rest
  rw [begun_nil, List.singleton_append] at hempty
  rw [frame_append c hcrc, answer_begun_start c hstartEsc hstartStop (sentItems_ok c p), hempty]
  rfl

end Collision

end Sys2Proof.Wire

namespace Sys2Proof.Machine

open Sys2Proof.Safety

theorem frameResult_payload (poly : Byte) (acc : List Byte) :
    (frameResult poly acc).payload = acc.dropLast := by
  rcases List.eq_nil_or_concat acc with rfl | ⟨pl, rx, rfl⟩
  · rfl
  · rw [List.concat_eq_append, frameResult_snoc, List.dropLast_concat]

/-- The result that a poll of a frame of this block returns. -/
def Result.validOf (p : List Byte) : Result := { complete := true, valid := true, payload := p }

/-- As many polls as there are frames return their blocks in order and leave nothing
(70_reset_and_hazards.md R221). -/
theorem pollResults_frames {c : Config} (hesc : c.stop ≠ c.esc) {bs : List (List Byte)}
    (hbs : ∀ p ∈ bs, ∃ crc, crcPayload p c.poly = some crc ∧ c.isTag crc = false) {r : State}
    (hcfg : r.cfg = c) (hib : r.ib = bs.flatMap (Wire.frame c)) :
    (pollResults bs.length r).1 = bs.map Result.validOf ∧ (pollResults bs.length r).2.ib = [] := by
  induction bs generalizing r with
  | nil => exact ⟨rfl, hib⟩
  | cons p bs ih =>
    obtain ⟨⟨crc, hcrc, htag⟩, hbs⟩ := List.forall_mem_cons.mp hbs
    obtain ⟨hrest, hres⟩ := Wire.answer_frame c hesc hcrc htag (bs.flatMap (Wire.frame c))
    obtain ⟨t, ht, htib, htres, -⟩ := exec_extPoll_of_answer (s := r) rfl
    rw [hcfg, hib, List.flatMap_cons, hrest] at htib
    rw [hcfg, hib, List.flatMap_cons, hres] at htres
    obtain ⟨hresults, hleft⟩ := ih hbs ((exec_cfg ht).trans hcfg) htib
    simp only [List.length_cons, pollResults, ht, htres, hresults, List.map_cons]
    exact ⟨rfl, hleft⟩

end Sys2Proof.Machine

namespace Sys2Proof.Proofs

open Sys2Proof.Machine Sys2Proof.Safety

/-- Settles O34: garbage goes before the first start tag, and from there each byte belongs to a frame
begun. -/
theorem pollRemovesOnlyConfirmedBytes : Obligations.PollRemovesOnlyConfirmedBytes := by
  intro s t hpoll
  obtain ⟨hib, hres, -⟩ := exec_extPoll_answer hpoll
  rw [hib, hres]
  rcases Wire.answer_cases s.cfg s.ib with ⟨hnone, hanswer⟩ | ⟨garbage, bs, hbytes, hgarbage, hanswer⟩
  · rw [hanswer]
    exact ⟨s.ib, [], hnone, nofun, fun _ => ⟨by simp, .inl ⟨rfl, rfl⟩⟩, nofun⟩
  · obtain ⟨frames, hframes, hincomplete, hcomplete⟩ :=
      Wire.scan_removesFrames (st := .frame) nofun (Wire.itemsOk_nil s.cfg) []
        (if garbage.isEmpty then [] else [.resyncDrop]) bs
    rw [hanswer]
    refine ⟨garbage, frames, hgarbage, hframes, fun h => ?_, fun h => ?_⟩
    · obtain ⟨hsplit, hrest⟩ := hincomplete h
      exact ⟨by rw [hbytes, List.append_assoc]; exact congrArg _ hsplit, .inr hrest⟩
    · obtain ⟨items, hitems, hsplit⟩ := hcomplete h
      exact ⟨items, hitems, by
        rw [hbytes, List.append_assoc, List.append_assoc, ← List.append_assoc _ (Wire.begun _ _)]
        exact congrArg _ hsplit⟩

/-- Settles O39: the items are read as their bytes, and the stop tag splits those. -/
theorem pollReadsAnyItems : Obligations.PollReadsAnyItems := by
  intro s items rest hdistinct hitems hib
  obtain ⟨-, -, hesc⟩ := s.cfg.tagsDistinct_iff.mp hdistinct
  have hanswer := Wire.answer_begun_stop s.cfg hesc hitems rest
  rw [Wire.begun, List.cons_append, ← hib] at hanswer
  obtain ⟨t, ht, htib, htres, -⟩ := exec_extPoll_of_answer hanswer
  refine ⟨t, ht, htib, fun hle => ?_, fun front e hfront _ => ?_⟩
  · exact htres.trans (frameResult_of_length_le_one _ (by simpa using hle))
  · rw [htres, hfront, List.map_append]
    exact frameResult_snoc _ _ _

/-- Settles O40: the sender's items and its checksum are what the receiver checks. -/
theorem framedBlockComesBackValid : Obligations.FramedBlockComesBackValid := by
  intro s p rest crc hdistinct _ hcrc htag hib
  obtain ⟨-, -, hesc⟩ := s.cfg.tagsDistinct_iff.mp hdistinct
  obtain ⟨hrest, hres⟩ := Wire.answer_frame s.cfg hesc hcrc htag rest
  obtain ⟨t, ht, htib, htres, -⟩ := exec_extPoll_of_answer (s := s) rfl
  rw [← hib] at hrest hres
  exact ⟨t, ht, htib.trans hrest, htres.trans hres⟩

/-- Settles O41: OB is one frame for each block, and as many polls take them off again. -/
theorem encodedPayloadComesBack : Obligations.EncodedPayloadComesBack := by
  intro s t r p hdistinct hcfg hpos hob hp hencode hcrcs hib
  obtain ⟨-, -, hesc⟩ := s.cfg.tagsDistinct_iff.mp hdistinct
  obtain ⟨-, rfl⟩ := exec_frmEncode_next hencode
  have hsent : r.ib = (Wire.blocks p).flatMap (Wire.frame s.cfg) := by
    rw [hib, frameAll_ob_of_pos_zero hpos hp, hob, List.nil_append]
  have hblocks : ∀ q ∈ Wire.blocks p, ∃ crc, crcPayload q s.cfg.poly = some crc ∧
      s.cfg.isTag crc = false := fun q hq =>
    have hcrc := crcPayload_of_ne_nil (Wire.ne_nil_of_mem_blocks hq) 0 s.cfg.poly
    ⟨_, hcrc, hcrcs q hq _ hcrc⟩
  obtain ⟨hresults, hleft⟩ := pollResults_frames hesc hblocks hcfg hsent
  rw [← Wire.length_blocks]
  refine ⟨?_, fun res hres => ?_, hleft⟩
  · rw [hresults, List.map_map]
    exact (congrArg List.flatten (List.map_id _)).trans (Wire.flatten_blocks p)
  · rw [hresults] at hres
    obtain ⟨q, -, rfl⟩ := List.mem_map.mp hres
    exact ⟨rfl, rfl⟩

/-- Settles O42: the bare checksum byte acts as the tag it equals. `ESC` escapes the stop tag and the
frame goes on, `STOP` ends it a byte early, `START` supersedes it. -/
theorem checksumEqualToATag : Obligations.ChecksumEqualToATag := by
  intro s p rest items crc hdistinct _ _ hcrc hitems
  obtain ⟨hstartStop, hstartEsc, hstopEsc⟩ := s.cfg.tagsDistinct_iff.mp hdistinct
  refine ⟨?_, ?_, ?_, ?_⟩ <;> rintro rfl hib
  · have hanswer := Wire.answer_begun s.cfg (Wire.sentItems_escapedStop_ok s.cfg (p := p) hitems) []
    rw [← Wire.frame_append_of_crc_esc s.cfg [] hcrc, List.append_nil, ← hib,
      Wire.scan_frame_nil] at hanswer
    obtain ⟨t, ht, htib, htres, -⟩ := exec_extPoll_of_answer hanswer
    have hbytes := Wire.frame_append_of_crc_esc s.cfg [] hcrc items
    rw [List.append_nil, List.append_nil, ← hib] at hbytes
    exact ⟨t, ht, htres, htib.trans hbytes.symm⟩
  · have hanswer := Wire.answer_begun_start s.cfg hstartEsc hstartStop
      (Wire.sentItems_escapedStop_ok s.cfg (p := p) hitems) rest
    rw [← Wire.frame_append_of_crc_esc s.cfg _ hcrc, ← hib] at hanswer
    obtain ⟨t, ht, htib, htres, htevents⟩ := exec_extPoll_of_answer hanswer
    obtain ⟨u, hu, huib, hures, huevents⟩ :=
      exec_extPoll_of_answer (s := { s with ib := s.cfg.start :: rest }) rfl
    exact ⟨t, u, ht, hu, htres.trans hures.symm, htib.trans huib.symm, by
      rw [htevents, huevents]
      rfl⟩
  · have hanswer := Wire.answer_frame_of_crc_stop s.cfg rest hstopEsc hcrc
    rw [← hib] at hanswer
    obtain ⟨t, ht, htib, htres, -⟩ := exec_extPoll_of_answer hanswer
    exact ⟨t, ht, htib, by rw [htres, frameResult_complete], by rw [htres, frameResult_payload]⟩
  · have hanswer := Wire.answer_frame_of_crc_start s.cfg rest hstartEsc hstartStop hstopEsc hcrc
    rw [← hib] at hanswer
    obtain ⟨t, ht, htib, htres, -⟩ := exec_extPoll_of_answer hanswer
    exact ⟨t, ht, htib, htres⟩

/-- Settles O43: the changed block is read whole, and its checksum is another than the one sent. -/
theorem singleBitFlipIsFlagged : Obligations.SingleBitFlipIsFlagged := by
  intro s p rest i k b crc hdistinct hpoly hle hget hk _ _ hcrc htag hib
  obtain ⟨-, -, hesc⟩ := s.cfg.tagsDistinct_iff.mp hdistinct
  have hanswer := Wire.answer_sent s.cfg hesc (p.set i (b ^^^ (1#8 <<< k))) htag rest
  rw [← Wire.start_block_append, ← hib, frameResult_snoc] at hanswer
  obtain ⟨t, ht, htib, htres, -⟩ := exec_extPoll_of_answer hanswer
  refine ⟨t, ht, htib, htres.trans ?_⟩
  rw [beq_eq_false_iff_ne.mpr]
  rw [← hcrc, hpoly]
  exact crcPayload_set_ne hle hget hk

end Sys2Proof.Proofs
